-- ==== Sys2Proof/Word.lean ====
section
/-! DEFINITION. The word types of the block (00_scope.md R11). -/

namespace Sys2Proof

/-- A byte, `0..255` (00_scope.md R11). -/
abbrev Byte := BitVec 8

/-- A 16-bit unsigned value: a CRC register, polynomial or checksum (00_scope.md R11). -/
abbrev U16 := BitVec 16

/-- A 32-bit unsigned value: a timestamp (00_scope.md R11, 20_memory.md R53). -/
abbrev U32 := BitVec 32

end Sys2Proof
end

