-- ==== Sys2Proof/Syntax.lean ====
section
/-! DEFINITION. The nine commands of the command port (30_encoding.md R79, R82), one constructor
per row of spec/opcode_table.json. -/

namespace Sys2Proof

/-- A command with its operands (30_encoding.md R79). A span is a list of bytes; its length prefix
bounds it in `Instr.WellFormed`. -/
inductive Instr where
  /-- `0x01`, `data: span16` (40_crc.md R106) -/
  | crc16 (data : List Byte)
  /-- `0x02`, `data: span16` (41_escape.md R124) -/
  | escape (data : List Byte)
  /-- `0x03`, `data: span16` (41_escape.md R125) -/
  | unescape (data : List Byte)
  /-- `0x04`, `type: type8`, `payload: span16` (42_frame_codec.md R142) -/
  | encode (typ : List Byte) (payload : List Byte)
  /-- `0x05`, `now: u32`, `buffer: span16` (42_frame_codec.md R144) -/
  | decode (now : U32) (buffer : List Byte)
  /-- `0x06`, `now: u32`, `byte: u8` (43_parser.md R170) -/
  | feed (now : U32) (byte : Byte)
  /-- `0x07`, `now: u32` (43_parser.md R171) -/
  | tick (now : U32)
  /-- `0x08` (44_control.md R220) -/
  | stats
  /-- `0x09` (44_control.md R221) -/
  | reset
deriving DecidableEq, Repr

/-- The nine legal opcodes (30_encoding.md R82). -/
inductive Opcode where
  | crc16 | escape | unescape | encode | decode | feed | tick | stats | reset
deriving DecidableEq, Repr

end Sys2Proof
end

