-- ==== Sys2Proof/WellFormed.lean ====
section
/-! DEFINITION. Which commands the port can carry: every operand fits its length prefix
(30_encoding.md R78, 20_memory.md R60). -/

namespace Sys2Proof

/-- A span16 operand holds `0..65535` bytes (20_memory.md R60). -/
def spanFits (data : List Byte) : Bool := data.length ≤ 65535

/-- A type8 operand holds `0..255` bytes (20_memory.md R60). -/
def typeFits (typ : List Byte) : Bool := typ.length ≤ 255

/-- Every operand fits the field the command port gives it. -/
def Instr.WellFormed : Instr → Bool
  | .crc16 data => spanFits data
  | .escape data => spanFits data
  | .unescape data => spanFits data
  | .encode typ payload => typeFits typ && spanFits payload
  | .decode _ buffer => spanFits buffer
  | .feed _ _ => true
  | .tick _ => true
  | .stats => true
  | .reset => true

end Sys2Proof
end

