-- ==== Sys2Proof/Decode.lean ====
section
/-! DEFINITION. The command port's encoding, both ways (30_encoding.md R77 to R86): the decoder of
a command's bytes, total on any bytes and rejecting by name, and the encoder. -/

namespace Sys2Proof

/-! ## Byte order -/

/-- The value of a big-endian field: `sum over k of field[k] * 256^(w-1-k)` (30_encoding.md R86). -/
def beNat : List Byte → Nat
  | [] => 0
  | b :: bs => b.toNat * 256 ^ bs.length + beNat bs

/-- A `w`-byte big-endian field, most significant byte first (20_memory.md R58, 30_encoding.md
R78). A value that does not fit is taken modulo `256^w`. -/
def beBytes : Nat → Nat → List Byte
  | 0, _ => []
  | w + 1, v => BitVec.ofNat 8 (v / 256 ^ w) :: beBytes w v

/-! ## The opcode map -/

/-- The opcode map of 30_encoding.md R79 and R82; every other byte is illegal (R83). -/
def Opcode.ofByte (b : Byte) : Option Opcode :=
  match b.toNat with
  | 0x01 => some .crc16
  | 0x02 => some .escape
  | 0x03 => some .unescape
  | 0x04 => some .encode
  | 0x05 => some .decode
  | 0x06 => some .feed
  | 0x07 => some .tick
  | 0x08 => some .stats
  | 0x09 => some .reset
  | _ => none

/-- The opcode's byte (30_encoding.md R79). -/
def Opcode.byte : Opcode → Byte
  | .crc16 => 0x01#8
  | .escape => 0x02#8
  | .unescape => 0x03#8
  | .encode => 0x04#8
  | .decode => 0x05#8
  | .feed => 0x06#8
  | .tick => 0x07#8
  | .stats => 0x08#8
  | .reset => 0x09#8

/-! ## Decoding -/

/-- The two command-port errors (60_exceptions.md R246). -/
inductive CommandError where
  /-- a legal opcode with the wrong byte count, or an empty command (30_encoding.md R84) -/
  | malformedCommand
  /-- the first byte is not a legal opcode (30_encoding.md R83) -/
  | illegalCommand
deriving DecidableEq, Repr

/-- Take a `w`-byte field off the front: its bytes and the rest. -/
def takeBytes (w : Nat) (bs : List Byte) : Option (List Byte × List Byte) :=
  if w ≤ bs.length then some (bs.take w, bs.drop w) else none

/-- Take a span whose length prefix has `w` bytes (30_encoding.md R78). -/
def takeSpan (w : Nat) (bs : List Byte) : Option (List Byte × List Byte) :=
  match takeBytes w bs with
  | none => none
  | some (len, rest) => takeBytes (beNat len) rest

/-- Take a `u32` operand (30_encoding.md R78, R86). -/
def takeU32 (bs : List Byte) : Option (U32 × List Byte) :=
  match takeBytes 4 bs with
  | none => none
  | some (f, rest) => some (BitVec.ofNat 32 (beNat f), rest)

/-- A command ends where its last operand ends: a longer one is malformed (30_encoding.md R84). -/
def atEnd (i : Instr) (rest : List Byte) : Option Instr :=
  if rest.isEmpty then some i else none

/-- The operands of one opcode, from the byte after it (30_encoding.md R79); `none` where the byte
count does not fit. -/
def decodeOperands (o : Opcode) (bs : List Byte) : Option Instr :=
  match o with
  | .crc16 => (takeSpan 2 bs).bind fun (data, rest) => atEnd (.crc16 data) rest
  | .escape => (takeSpan 2 bs).bind fun (data, rest) => atEnd (.escape data) rest
  | .unescape => (takeSpan 2 bs).bind fun (data, rest) => atEnd (.unescape data) rest
  | .encode => (takeSpan 1 bs).bind fun (typ, rest) =>
      (takeSpan 2 rest).bind fun (payload, rest') => atEnd (.encode typ payload) rest'
  | .decode => (takeU32 bs).bind fun (now, rest) =>
      (takeSpan 2 rest).bind fun (buffer, rest') => atEnd (.decode now buffer) rest'
  | .feed => (takeU32 bs).bind fun (now, rest) =>
      match rest with
      | b :: rest' => atEnd (.feed now b) rest'
      | [] => none
  | .tick => (takeU32 bs).bind fun (now, rest) => atEnd (.tick now) rest
  | .stats => atEnd .stats bs
  | .reset => atEnd .reset bs

/-- The command a byte string stands for. The opcode is checked on the first byte alone, before
the byte count (60_exceptions.md R250). -/
def decodeCommand : List Byte → Except CommandError Instr
  | [] => .error .malformedCommand
  | op :: operands =>
    match Opcode.ofByte op with
    | none => .error .illegalCommand
    | some o =>
      match decodeOperands o operands with
      | none => .error .malformedCommand
      | some i => .ok i

/-! ## Encoding -/

/-- A span with a `w`-byte length prefix (30_encoding.md R78): span16, span32 and type8 are the
widths 2, 4 and 1. -/
def spanBytes (w : Nat) (data : List Byte) : List Byte := beBytes w data.length ++ data

/-- The opcode of a command (30_encoding.md R79). -/
def Instr.opcode : Instr → Opcode
  | .crc16 _ => .crc16
  | .escape _ => .escape
  | .unescape _ => .unescape
  | .encode _ _ => .encode
  | .decode _ _ => .decode
  | .feed _ _ => .feed
  | .tick _ => .tick
  | .stats => .stats
  | .reset => .reset

/-- The operand fields of a command (30_encoding.md R79). -/
def operandBytes : Instr → List Byte
  | .crc16 data => spanBytes 2 data
  | .escape data => spanBytes 2 data
  | .unescape data => spanBytes 2 data
  | .encode typ payload => spanBytes 1 typ ++ spanBytes 2 payload
  | .decode now buffer => beBytes 4 now.toNat ++ spanBytes 2 buffer
  | .feed now b => beBytes 4 now.toNat ++ [b]
  | .tick now => beBytes 4 now.toNat
  | .stats => []
  | .reset => []

/-- The byte string of a command (30_encoding.md R77, R79). -/
def encodeCommand (i : Instr) : List Byte := i.opcode.byte :: operandBytes i

/-! ## The length of a command, and the table's words -/

/-- Byte `k` of a string, zero past its end. -/
def byteAt (bs : List Byte) (k : Nat) : Byte := bs.getD k 0#8

/-- The total length that the opcode and the length prefixes give a command (30_encoding.md R85),
with the bytes past the end of the string read as zero; `none` for an illegal opcode. -/
def commandLength (bs : List Byte) : Option Nat :=
  match Opcode.ofByte (byteAt bs 0) with
  | none => none
  | some .crc16 => some (3 + beNat [byteAt bs 1, byteAt bs 2])
  | some .escape => some (3 + beNat [byteAt bs 1, byteAt bs 2])
  | some .unescape => some (3 + beNat [byteAt bs 1, byteAt bs 2])
  | some .encode =>
    let t := (byteAt bs 1).toNat
    some (4 + t + beNat [byteAt bs (2 + t), byteAt bs (3 + t)])
  | some .decode => some (7 + beNat [byteAt bs 5, byteAt bs 6])
  | some .feed => some 6
  | some .tick => some 5
  | some .stats => some 1
  | some .reset => some 1

/-- The first `k` bytes of a table word: byte 0 is its bits 7..0. -/
def wordBytes : Nat → Nat → List Byte
  | 0, _ => []
  | k + 1, w => BitVec.ofNat 8 w :: wordBytes k (w / 256)

/-- The command whose low `nbits` bits are `w` and whose every further bit is zero, laid out as the
host presents it: byte 0 first, up to the length its opcode and prefixes give it. -/
def tableCommand (nbits w : Nat) : List Byte :=
  let bs := wordBytes ((nbits + 7) / 8) w
  match commandLength bs with
  | none => bs
  | some n => (List.range (max n bs.length)).map (byteAt bs)

/-- What the decoder reads from the command of a table word. -/
def decodeTableWord (nbits w : Nat) : Option Instr :=
  match decodeCommand (tableCommand nbits w) with
  | .ok i => some i
  | .error _ => none

end Sys2Proof
end

