-- ==== Sys2Proof/Config.lean ====
section
/-! DEFINITION. The implementation parameters of the block (00_scope.md R7 to R10) and when they
are well formed. The source leaves nothing undefined after a command, so there is no free value. -/

namespace Sys2Proof

/-- The configuration of the block, 00_scope.md R7. It is fixed at instantiation (R10). `ESC_XOR`
and `FRAME_OVERHEAD` are not parameters (90_conflicts.md C5, 00_scope.md R8). -/
structure Config where
  /-- `START_MARKER` -/
  startMarker : Byte
  /-- `END_MARKER` -/
  endMarker : Byte
  /-- `ESC_MARKER` -/
  escMarker : Byte
  /-- `CRC_POLY` -/
  crcPoly : U16
  /-- `CRC_INIT` -/
  crcInit : U16
  /-- `CRC_REFIN` -/
  crcRefin : Bool
  /-- `CRC_REFOUT` -/
  crcRefout : Bool
  /-- `CRC_XOROUT` -/
  crcXorout : U16
  /-- `MAX_FRAME_SIZE`, in bytes -/
  maxFrameSize : Nat
  /-- `TIMEOUT_MS`, in milliseconds -/
  timeoutMs : U32
  /-- `TIME_WIDTH`, in bits -/
  timeWidth : Nat
  /-- `COUNTER_WIDTH`, in bits -/
  counterWidth : Nat
  /-- `RESYNC_ON_START` -/
  resyncOnStart : Bool
deriving DecidableEq, Repr

/-- The default column of 00_scope.md R7. -/
def Config.default : Config where
  startMarker := 0x02#8
  endMarker := 0x03#8
  escMarker := 0x1B#8
  crcPoly := 0x1021#16
  crcInit := 0xFFFF#16
  crcRefin := false
  crcRefout := false
  crcXorout := 0x0000#16
  maxFrameSize := 1009
  timeoutMs := 5000#32
  timeWidth := 32
  counterWidth := 32
  resyncOnStart := false

/-- `ESC_XOR`, fixed by the source at `0x20` (00_scope.md R7, 90_conflicts.md C5). -/
def escXor : Byte := 0x20#8

/-- `FRAME_OVERHEAD` (00_scope.md R8): START, three length digits, the colon after them, END and
four checksum digits. -/
def frameOverhead : Nat := 10

/-- `PAYLOAD_BUDGET = MAX_FRAME_SIZE - FRAME_OVERHEAD` (00_scope.md R7). -/
def Config.payloadBudget (c : Config) : Nat := c.maxFrameSize - frameOverhead

/-- `isReserved(b)` (00_scope.md R12): `b` is one of the three markers. -/
def Config.isReserved (c : Config) (b : Byte) : Bool :=
  b == c.startMarker || b == c.endMarker || b == c.escMarker

/-- 00_scope.md R9 item 1: the markers are pairwise distinct. -/
def Config.markersDistinct (c : Config) : Bool :=
  c.startMarker != c.endMarker && c.startMarker != c.escMarker && c.endMarker != c.escMarker

/-- The bytes 00_scope.md R9 item 2 keeps the markers away from: the ASCII decimal digits, the
uppercase hexadecimal letters and the colon. -/
def isHeaderByte (b : Byte) : Bool :=
  (0x30 ≤ b.toNat && b.toNat ≤ 0x39) || (0x41 ≤ b.toNat && b.toNat ≤ 0x46) || b == 0x3A#8

/-- 00_scope.md R9 item 2: no marker is a header byte. -/
def Config.markersClearOfHeader (c : Config) : Bool :=
  !isHeaderByte c.startMarker && !isHeaderByte c.endMarker && !isHeaderByte c.escMarker

/-- 00_scope.md R9 item 3: no marker's image under `ESC_XOR` is a marker. -/
def Config.imagesClear (c : Config) : Bool :=
  !c.isReserved (c.startMarker ^^^ escXor) && !c.isReserved (c.endMarker ^^^ escXor) &&
    !c.isReserved (c.escMarker ^^^ escXor)

/-- 00_scope.md R9, items 1 to 4 and 6 (item 5 holds by the types), and the bound
`COUNTER_WIDTH ≤ 32` that 30_encoding.md R80 adds for the STATS response (log entry 7). -/
def Config.wf (c : Config) : Bool :=
  c.markersDistinct && c.markersClearOfHeader && c.imagesClear &&
    (14 ≤ c.maxFrameSize && c.maxFrameSize ≤ 1009) &&
    decide (c.timeoutMs.toNat < 2 ^ c.timeWidth) &&
    decide (c.counterWidth ≤ 32)

end Sys2Proof
end

