-- ==== Sys2Proof/Machine/State.lean ====
section
/-! DEFINITION. The state of the block (10_state.md), the reasons a step can stop, and the state
after reset. -/

namespace Sys2Proof.Machine

/-- The parser state (10_state.md R23): one variant per state of the source's state machine, each
with only the data that state needs. -/
inductive ParserState where
  /-- no attempt in progress -/
  | idle
  /-- the length field is being received; `start` is the time of the attempt's START (R27) -/
  | readingLength (start : U32) (lenDigits : List Byte)
  /-- the type code is being received -/
  | readingType (start : U32) (lenDigits : List Byte) (typ : List Byte)
  /-- the payload is being received, still escaped; `esc` is the escape flag (R26) -/
  | readingPayload (start : U32) (lenDigits : List Byte) (typ : List Byte) (raw : List Byte)
      (esc : Bool)
  /-- the checksum field is being received; `payload` is `unescape raw` -/
  | readingChecksum (start : U32) (lenDigits : List Byte) (typ : List Byte) (raw : List Byte)
      (payload : List Byte) (cs : List Byte)
deriving DecidableEq, Repr

/-- The statistics (10_state.md R29): five counters of `COUNTER_WIDTH` bits, each held as its
value. Only `bump` in Machine/Ops.lean advances one, modulo `2^COUNTER_WIDTH` (R31). -/
structure Stats where
  attempted : Nat
  valid : Nat
  checksumErrors : Nat
  malformed : Nat
  timeouts : Nat
deriving DecidableEq, Repr

/-- The statistics after a block reset (10_state.md R37). -/
def Stats.zero : Stats := ⟨0, 0, 0, 0, 0⟩

/-- The state of the block. `parser` and `stats` are the spec's state (10_state.md R37). `cfg` is
the configuration fixed at instantiation (00_scope.md R10; log entry 1). `pending` and `response`
are the two sides of the command port (30_encoding.md R77; log entries 2 and 3). -/
structure State where
  /-- the parameters of 00_scope.md R7; no command writes them -/
  cfg : Config
  /-- the parser state (10_state.md R23) -/
  parser : ParserState
  /-- the five counters (10_state.md R29) -/
  stats : Stats
  /-- the commands the host has presented and the block has not taken, first one first -/
  pending : List (List Byte)
  /-- the response of the last command taken -/
  response : Option (List Byte)
deriving DecidableEq, Repr

/-- Why a step faults. The block has no trap and no stop (60_exceptions.md R253 to R255): every
error is a response byte or a counter, so there is no constructor. -/
inductive Fault : Type
deriving DecidableEq, Repr

/-- Why a step refuses. -/
inductive Refusal where
  /-- Raised by `exec` for an instruction that has no meaning yet. Safe: the run stops. No arm
  raises it: every command is modelled. -/
  | notModelled (mnemonic : String)
  /-- Raised by `step` alone, for a state whose configuration breaks 00_scope.md R9: "A model
  refuses to instantiate the block on a configuration that breaks one of them". Safe: the run stops
  (log entry 5). -/
  | illFormedConfiguration
deriving DecidableEq, Repr

/-- The block with configuration `c` after power-on (70_reset_and_hazards.md R270, R271,
10_state.md R37): no command presented, no response given. -/
def State.powerOn (c : Config) : State where
  cfg := c
  parser := .idle
  stats := Stats.zero
  pending := []
  response := none

/-- Instantiating the block: refused on an ill-formed configuration (00_scope.md R9). -/
def State.instantiate (c : Config) : Option State :=
  if c.wf then some (State.powerOn c) else none

/-- The machine right after reset, with the default configuration of 00_scope.md R7 (log entry 1). -/
def State.reset : State := State.powerOn Config.default

end Sys2Proof.Machine
end

