-- ==== Sys2Proof/Machine/Flags.lean ====
section
/-! DEFINITION. The status byte of a response (60_exceptions.md R241) and the parser's escape flag
(10_state.md R26): the only condition codes and the only flag of the block. -/

namespace Sys2Proof.Machine

/-- The status of a response (60_exceptions.md R241). -/
inductive Status where
  | ok | frame | invalidType | payloadTooLarge | malformedEscape | decodeMalformed
  | decodeChecksumMismatch | malformedCommand | illegalCommand
deriving DecidableEq, Repr

/-- The status byte (60_exceptions.md R241). -/
def Status.code : Status → Byte
  | .ok => 0x00#8
  | .frame => 0x01#8
  | .invalidType => 0x10#8
  | .payloadTooLarge => 0x11#8
  | .malformedEscape => 0x20#8
  | .decodeMalformed => 0x30#8
  | .decodeChecksumMismatch => 0x31#8
  | .malformedCommand => 0xFE#8
  | .illegalCommand => 0xFF#8

/-- The escape flag after a payload byte (10_state.md R26): an ESC sets it while it is clear, and
the next byte clears it whatever its value. -/
def escFlagNext (c : Config) (esc : Bool) (b : Byte) : Bool := !esc && b == c.escMarker

/-- The escape flag after the payload bytes `raw`, clear at the start (10_state.md R26). -/
def escFlag (c : Config) (raw : List Byte) : Bool := raw.foldl (escFlagNext c) false

end Sys2Proof.Machine
end

