-- ==== Sys2Proof/Machine/Operands.lean ====
section
/-! DEFINITION. The field forms of the wire and of the command port's results: ASCII numerals
(00_scope.md R11, R12) and the frame record (10_state.md R36, 30_encoding.md R81). The command
port's integers and spans are in Decode.lean. -/

namespace Sys2Proof.Machine

/-- `':'` (00_scope.md R11). -/
def colon : Byte := 0x3A#8

/-- `isDigit(b)` (00_scope.md R12). -/
def isDigit (b : Byte) : Bool := 0x30 ≤ b.toNat && b.toNat ≤ 0x39

/-- `digitVal(b)`, meant for a digit (00_scope.md R12). -/
def digitVal (b : Byte) : Nat := b.toNat - 0x30

/-- The ASCII digit of `n`, `0 <= n <= 9`. -/
def digitByte (n : Nat) : Byte := BitVec.ofNat 8 (0x30 + n)

/-- `dec3(n)` for `0 <= n <= 999`, most significant digit first (00_scope.md R12). -/
def dec3 (n : Nat) : List Byte :=
  [digitByte (n / 100 % 10), digitByte (n / 10 % 10), digitByte (n % 10)]

/-- `decVal3(d)` of the first three bytes (00_scope.md R12). -/
def decVal3 (d : List Byte) : Nat :=
  100 * digitVal (byteAt d 0) + 10 * digitVal (byteAt d 1) + digitVal (byteAt d 2)

/-- `H(x)` for `0 <= x <= 15`: one uppercase hexadecimal digit (00_scope.md R12). -/
def hexByte (x : Nat) : Byte :=
  if x ≤ 9 then BitVec.ofNat 8 (0x30 + x) else BitVec.ofNat 8 (0x41 + (x - 10))

/-- `hex4(v)`, most significant nibble first (00_scope.md R12). -/
def hex4 (v : U16) : List Byte :=
  [hexByte (v.extractLsb' 12 4).toNat, hexByte (v.extractLsb' 8 4).toNat,
    hexByte (v.extractLsb' 4 4).toNat, hexByte (v.extractLsb' 0 4).toNat]

/-- A frame record (10_state.md R36). It is not state: it exists only in a response (R35). -/
structure FrameRecord where
  /-- the received type code, 3 bytes -/
  typ : List Byte
  /-- the unescaped payload -/
  payload : List Byte
  /-- the checksum -/
  checksum : U16
  /-- the timestamp operand of the command that completed the frame -/
  receivedAt : U32
deriving DecidableEq, Repr

/-- A frame record's encoding in a response (30_encoding.md R81). -/
def frameBytes (f : FrameRecord) : List Byte :=
  f.typ ++ spanBytes 2 f.payload ++ beBytes 2 f.checksum.toNat ++ beBytes 4 f.receivedAt.toNat

end Sys2Proof.Machine
end

