-- ==== Sys2Proof/Machine/Ops.lean ====
section
/-! DEFINITION. The shared operations over the state: responses, reported errors, counters, the
attempt timer, the returns to `Idle` and to the reset state, and taking the next command. -/

namespace Sys2Proof.Machine

/-! ## Responses and reported errors -/

/-- `respond(status, fields...)` (00_scope.md R13, 30_encoding.md R77): the response is the status
byte and the result fields. -/
def respond (st : Status) (fields : List Byte) (s : State) : State :=
  { s with response := some (st.code :: fields) }

/-- `raise E` (00_scope.md R13): THE ONE operation by which a command fails. The response is the one
status byte and no state changes (60_exceptions.md R240, R241, R253). There is no trap entry to take
and no trap return (R253, R254). -/
def raiseError (st : Status) (s : State) : State := respond st [] s

/-- The status of a command-port error (60_exceptions.md R246). -/
def commandErrorStatus : CommandError → Status
  | .malformedCommand => .malformedCommand
  | .illegalCommand => .illegalCommand

/-! ## Counters -/

/-- `count(c)` on a counter's value: `(c + 1) mod 2^COUNTER_WIDTH` (10_state.md R31). -/
def bump (c : Config) (n : Nat) : Nat := (n + 1) % 2 ^ c.counterWidth

/-- Count a START that begins an attempt (10_state.md R29). -/
def countAttempted (s : State) : State :=
  { s with stats := { s.stats with attempted := bump s.cfg s.stats.attempted } }

/-- Count a frame emitted (10_state.md R29). -/
def countValid (s : State) : State :=
  { s with stats := { s.stats with valid := bump s.cfg s.stats.valid } }

/-- Count a checksum field that does not match (10_state.md R29). -/
def countChecksumError (s : State) : State :=
  { s with stats := { s.stats with checksumErrors := bump s.cfg s.stats.checksumErrors } }

/-- Count a malformed-frame failure (10_state.md R29). -/
def countMalformed (s : State) : State :=
  { s with stats := { s.stats with malformed := bump s.cfg s.stats.malformed } }

/-- Count an attempt abandoned by timeout (10_state.md R29). -/
def countTimeout (s : State) : State :=
  { s with stats := { s.stats with timeouts := bump s.cfg s.stats.timeouts } }

/-! ## The parser's return to `Idle` and the block reset -/

/-- Replace the parser state. -/
def setParser (q : ParserState) (s : State) : State := { s with parser := q }

/-- `goIdle()` (10_state.md R25): the attempt and all its fields are discarded; the statistics are
not touched (70_reset_and_hazards.md R272). -/
def goIdle (s : State) : State := setParser .idle s

/-- The block reset (70_reset_and_hazards.md R270): every state element of 10_state.md R37 to its
reset value. The configuration does not change (00_scope.md R10), and the command port is no part
of R37. -/
def resetBlock (s : State) : State := { goIdle s with stats := Stats.zero }

/-! ## The attempt timer -/

/-- The time of the START that began the attempt; absent in `Idle` (10_state.md R27). -/
def ParserState.start? : ParserState → Option U32
  | .idle => none
  | .readingLength start _ => some start
  | .readingType start _ _ => some start
  | .readingPayload start _ _ _ _ => some start
  | .readingChecksum start _ _ _ _ _ => some start

/-- `elapsed(now) = (now - start) mod 2^TIME_WIDTH` (20_memory.md R53; log entry 6). -/
def elapsed (c : Config) (start now : U32) : Nat :=
  (((now.toNat : Int) - (start.toNat : Int)) % ((2 ^ c.timeWidth : Nat) : Int)).toNat

/-- The attempt in progress, if any, has timed out at `now`: strictly more than `TIMEOUT_MS` have
elapsed (43_parser.md R172). -/
def timedOut (c : Config) (q : ParserState) (now : U32) : Bool :=
  match q.start? with
  | none => false
  | some start => decide (c.timeoutMs.toNat < elapsed c start now)

/-- `timeoutCheck(now)` (43_parser.md R172). -/
def timeoutCheck (now : U32) (s : State) : State :=
  if timedOut s.cfg s.parser now then goIdle (countTimeout s) else s

/-! ## Taking the next command -/

/-- The first command presented, and the state without it; `none` when the host presents none
(20_memory.md R52; log entry 2). -/
def takeCommand (s : State) : Option (List Byte × State) :=
  match s.pending with
  | [] => none
  | bytes :: rest => some (bytes, { s with pending := rest })

/-- The host presents one more command, to be taken before those it has presented. -/
def presentCommand (bytes : List Byte) (s : State) : State :=
  { s with pending := bytes :: s.pending }

end Sys2Proof.Machine
end

