-- ==== Sys2Proof/Machine/Crc.lean ====
section
/-! DEFINITION. The CRC Engine (40_crc.md): the checksum function and the CRC16 command. -/

namespace Sys2Proof.Machine

/-- `reflect8(b)`: bit `k` moves to bit `7 - k` (40_crc.md R101). -/
def reflect8 (b : Byte) : Byte := b.reverse

/-- `reflect16(r)`: bit `k` moves to bit `15 - k` (40_crc.md R101). -/
def reflect16 (r : U16) : U16 := r.reverse

/-- One shift of the CRC register: bit 15 is discarded, and the polynomial is added when it was 1
(40_crc.md R100). -/
def crcShift (c : Config) (r : U16) : U16 :=
  if r.getLsbD 15 then (r <<< 1) ^^^ c.crcPoly else r <<< 1

/-- Eight shifts (40_crc.md R100). -/
def crcShift8 (c : Config) (r : U16) : U16 := Nat.repeat (crcShift c) 8 r

/-- The register after one byte (40_crc.md R100, 20_memory.md R57). -/
def crcByte (c : Config) (r : U16) (b : Byte) : U16 :=
  crcShift8 c (r ^^^ ((if c.crcRefin then reflect8 b else b).zeroExtend 16 <<< 8))

/-- The register after a span, from `r` (40_crc.md R100). -/
def crcRegister (c : Config) (r : U16) (data : List Byte) : U16 := data.foldl (crcByte c) r

/-- The output stage: reflection and the final XOR (40_crc.md R100). -/
def crcOutput (c : Config) (r : U16) : U16 :=
  (if c.crcRefout then reflect16 r else r) ^^^ c.crcXorout

/-- `crc16(data)` (40_crc.md R100): total, with no error condition (R103). -/
def crc16 (c : Config) (data : List Byte) : U16 := crcOutput c (crcRegister c c.crcInit data)

/-- CRC16 (40_crc.md R106). -/
def execCrc16 (data : List Byte) (s : State) : Host.Outcome State Fault Refusal :=
  .next (respond .ok (beBytes 2 (crc16 s.cfg data).toNat) s)

end Sys2Proof.Machine
end

