-- ==== Sys2Proof/Machine/Escape.lean ====
section
/-! DEFINITION. The Escape Codec (41_escape.md): byte-stuffing and its inverse, and the two
commands. -/

namespace Sys2Proof.Machine

/-- The bytes that stand for one payload byte on the wire (30_encoding.md R73). -/
def escapeByte (c : Config) (b : Byte) : List Byte :=
  if c.isReserved b then [c.escMarker, b ^^^ escXor] else [b]

/-- `escape(p)` (41_escape.md R120). -/
def escape (c : Config) (p : List Byte) : List Byte := p.flatMap (escapeByte c)

/-- `unescape(d)`, `none` for MalformedEscape (41_escape.md R121). The byte after an ESC is consumed
whatever its value (R122). -/
def unescape (c : Config) : List Byte → Option (List Byte)
  | [] => some []
  | [b] => if b = c.escMarker then none else some [b]
  | b :: x :: rest =>
    if b = c.escMarker then (unescape c rest).map fun out => (x ^^^ escXor) :: out
    else (unescape c (x :: rest)).map fun out => b :: out

/-- ESCAPE (41_escape.md R124). -/
def execEscape (data : List Byte) (s : State) : Host.Outcome State Fault Refusal :=
  .next (respond .ok (spanBytes 4 (escape s.cfg data)) s)

/-- UNESCAPE (41_escape.md R125, 60_exceptions.md R244). -/
def execUnescape (data : List Byte) (s : State) : Host.Outcome State Fault Refusal :=
  match unescape s.cfg data with
  | none => .next (raiseError .malformedEscape s)
  | some out => .next (respond .ok (spanBytes 4 out) s)

end Sys2Proof.Machine
end

