-- ==== Sys2Proof/Machine/Parser.lean ====
section
/-! DEFINITION. The Frame Parser (43_parser.md): the per-byte step, and the FEED and TICK
commands. -/

namespace Sys2Proof.Machine

/-- What an arm of the per-byte step reports (43_parser.md R170). -/
inductive Event where
  /-- a START began an attempt (R174) -/
  | begin
  /-- a malformed-frame failure (R187) -/
  | malformed
  /-- a checksum field that does not match (R185) -/
  | mismatch
  /-- a completed frame (R185) -/
  | frame (f : FrameRecord)
deriving DecidableEq, Repr

/-- A malformed-frame failure: to `Idle` at once, the byte consumed (43_parser.md R187). Counting it
is FEED's work (90_conflicts.md C12). -/
def failMalformed : ParserState × Option Event := (.idle, some .malformed)

/-- The wire bytes a checksum covers: `LLL ++ ":" ++ TTT ++ ":" ++ E` (30_encoding.md R72, 40_crc.md
R104). -/
def checkedSpan (lenDigits typ raw : List Byte) : List Byte :=
  lenDigits ++ colon :: typ ++ colon :: raw

/-- `Idle` (43_parser.md R174). -/
def idleArm (c : Config) (b : Byte) (now : U32) : ParserState × Option Event :=
  if b = c.startMarker then (.readingLength now [], some .begin) else (.idle, none)

/-- `ReadingLength` (43_parser.md R175, R176). -/
def lengthArm (start : U32) (lenDigits : List Byte) (b : Byte) : ParserState × Option Event :=
  if lenDigits.length < 3 then
    if isDigit b then (.readingLength start (lenDigits ++ [b]), none) else failMalformed
  else if b = colon then (.readingType start lenDigits [], none) else failMalformed

/-- `ReadingType` (43_parser.md R177, R178). -/
def typeArm (start : U32) (lenDigits typ : List Byte) (b : Byte) : ParserState × Option Event :=
  if typ.length < 3 then (.readingType start lenDigits (typ ++ [b]), none)
  else if b = colon then (.readingPayload start lenDigits typ [] false, none) else failMalformed

/-- Keep one more payload byte, then the budget check (43_parser.md R183, 20_memory.md R63). -/
def appendRaw (c : Config) (start : U32) (lenDigits typ raw : List Byte) (b : Byte) (esc : Bool) :
    ParserState × Option Event :=
  if c.payloadBudget < 4 + (raw ++ [b]).length then failMalformed
  else (.readingPayload start lenDigits typ (raw ++ [b]) esc, none)

/-- The END of a payload (43_parser.md R180): the content length against the declared length, then
the payload unescaped. R180 says that `unescape raw` cannot fail here; in a state that no run reaches
the failure is a malformed frame (log entry 8). -/
def endPayload (c : Config) (start : U32) (lenDigits typ raw : List Byte) :
    ParserState × Option Event :=
  if 4 + raw.length ≠ decVal3 lenDigits then failMalformed
  else
    match unescape c raw with
    | some payload => (.readingChecksum start lenDigits typ raw payload [], none)
    | none => failMalformed

/-- `ReadingPayload` (43_parser.md R179 to R182). -/
def payloadArm (c : Config) (start : U32) (lenDigits typ raw : List Byte) (esc : Bool) (b : Byte) :
    ParserState × Option Event :=
  if esc then appendRaw c start lenDigits typ raw b false
  else if b = c.endMarker then endPayload c start lenDigits typ raw
  else if b = c.escMarker then appendRaw c start lenDigits typ raw b true
  else appendRaw c start lenDigits typ raw b false

/-- `ReadingChecksum` (43_parser.md R184, R185). The four bytes are compared with the uppercase
rendering of the expected checksum, never converted to a number (30_encoding.md R86). -/
def checksumArm (c : Config) (start : U32) (lenDigits typ raw payload cs : List Byte) (b : Byte)
    (now : U32) : ParserState × Option Event :=
  if cs.length < 3 then (.readingChecksum start lenDigits typ raw payload (cs ++ [b]), none)
  else
    let expected := crc16 c (checkedSpan lenDigits typ raw)
    if cs ++ [b] = hex4 expected then (.idle, some (.frame ⟨typ, payload, expected, now⟩))
    else (.idle, some .mismatch)

/-- The one arm of 43_parser.md R174 to R185 that matches the tag and fields (the decode map of
30_encoding.md R76). -/
def byteArm (c : Config) (q : ParserState) (b : Byte) (now : U32) : ParserState × Option Event :=
  match q with
  | .idle => idleArm c b now
  | .readingLength start lenDigits => lengthArm start lenDigits b
  | .readingType start lenDigits typ => typeArm start lenDigits typ b
  | .readingPayload start lenDigits typ raw esc => payloadArm c start lenDigits typ raw esc b
  | .readingChecksum start lenDigits typ raw payload cs =>
    checksumArm c start lenDigits typ raw payload cs b now

/-- When a START ends the attempt in progress and begins a new one (43_parser.md R186). -/
def resyncs (c : Config) (q : ParserState) (b : Byte) : Bool :=
  c.resyncOnStart && b == c.startMarker &&
    match q with
    | .idle => false
    | .readingPayload _ _ _ _ esc => !esc
    | .readingLength _ _ => true
    | .readingType _ _ _ => true
    | .readingChecksum _ _ _ _ _ _ => true

/-- `byteStep(q, b, now)` (43_parser.md R170): the resync arm of R186, then the one arm of R174 to
R185; the parser state after it and the events in order. -/
def byteStep (c : Config) (q : ParserState) (b : Byte) (now : U32) : ParserState × List Event :=
  if resyncs c q b then
    let r := byteArm c .idle b now
    (r.1, .malformed :: r.2.toList)
  else
    let r := byteArm c q b now
    (r.1, r.2.toList)

/-- What FEED counts for an event (43_parser.md R170). -/
def countEvent (s : State) : Event → State
  | .begin => countAttempted s
  | .malformed => countMalformed s
  | .mismatch => countChecksumError s
  | .frame _ => countValid s

/-- The frame among the events, if any; there is at most one (43_parser.md R188). -/
def emitted : List Event → Option FrameRecord
  | [] => none
  | .frame f :: _ => some f
  | _ :: rest => emitted rest

/-- The response of a FEED (43_parser.md R170, R188): the frame it completed, or OK. -/
def respondEvents (events : List Event) (s : State) : State :=
  match emitted events with
  | some f => respond .frame (frameBytes f) s
  | none => respond .ok [] s

/-- One byte into the block's own parser, and its events counted in order (43_parser.md R170). -/
def feedByte (now : U32) (b : Byte) (s : State) : State :=
  let r := byteStep s.cfg s.parser b now
  respondEvents r.2 (r.2.foldl countEvent (setParser r.1 s))

/-- FEED (43_parser.md R170): the timeout check first, then the byte (R173). -/
def execFeed (now : U32) (b : Byte) (s : State) : Host.Outcome State Fault Refusal :=
  .next (feedByte now b (timeoutCheck now s))

/-- TICK (43_parser.md R171). -/
def execTick (now : U32) (s : State) : Host.Outcome State Fault Refusal :=
  .next (respond .ok [] (timeoutCheck now s))

end Sys2Proof.Machine
end

