-- ==== Sys2Proof/Machine/Codec.lean ====
section
/-! DEFINITION. The Frame Codec (42_frame_codec.md): both directions, and the ENCODE and DECODE
commands. -/

namespace Sys2Proof.Machine

/-! ## Encode -/

/-- The EncodeErrors (60_exceptions.md R242, R243). -/
inductive EncodeError where
  | invalidType
  | payloadTooLarge
deriving DecidableEq, Repr

/-- The status of an EncodeError (60_exceptions.md R241). -/
def encodeErrorStatus : EncodeError → Status
  | .invalidType => .invalidType
  | .payloadTooLarge => .payloadTooLarge

/-- The content of a frame: `TTT ++ ":" ++ E` (30_encoding.md R71). -/
def contentOf (typ escaped : List Byte) : List Byte := typ ++ colon :: escaped

/-- The wire frame of a content (30_encoding.md R70): START, the length field, the content, END, the
checksum field. -/
def wireFrame (c : Config) (content : List Byte) : List Byte :=
  let headed := dec3 content.length ++ colon :: content
  c.startMarker :: headed ++ c.endMarker :: hex4 (crc16 c headed)

/-- `encode(type, payload)`, its checks in the source's order (42_frame_codec.md R140). The budget
bounds the content (R141). -/
def frameEncode (c : Config) (typ payload : List Byte) : Except EncodeError (List Byte) :=
  if typ.length ≠ 3 then .error .invalidType
  else
    let content := contentOf typ (escape c payload)
    if c.payloadBudget < content.length then .error .payloadTooLarge
    else .ok (wireFrame c content)

/-- ENCODE (42_frame_codec.md R142). -/
def execEncode (typ payload : List Byte) (s : State) : Host.Outcome State Fault Refusal :=
  match frameEncode s.cfg typ payload with
  | .error e => .next (raiseError (encodeErrorStatus e) s)
  | .ok wire => .next (respond .ok (spanBytes 4 wire) s)

/-! ## Decode -/

/-- The DecodeErrors (60_exceptions.md R245). -/
inductive DecodeError where
  | malformed
  | checksumMismatch
deriving DecidableEq, Repr

/-- The status of a DecodeError (60_exceptions.md R241). -/
def decodeErrorStatus : DecodeError → Status
  | .malformed => .decodeMalformed
  | .checksumMismatch => .decodeChecksumMismatch

/-- How one byte's events bear on DECODE (42_frame_codec.md R143): the first that is not the START's
`begin` (log entry 10). -/
def outcomeOf : List Event → Option Event
  | [] => none
  | .begin :: rest => outcomeOf rest
  | e :: _ => some e

/-- The loop of 42_frame_codec.md R143 over the bytes of the buffer that are left: `last` asks
whether the byte just taken was the buffer's last. -/
def decodeLoop (c : Config) (now : U32) : ParserState → List Byte → Except DecodeError FrameRecord
  | _, [] => .error .malformed
  | q, b :: rest =>
    let r := byteStep c q b now
    let last := rest.isEmpty
    match outcomeOf r.2 with
    | some .malformed => .error .malformed
    | some .mismatch => if last then .error .checksumMismatch else .error .malformed
    | some (.frame f) => if last then .ok f else .error .malformed
    | _ => decodeLoop c now r.1 rest

/-- `decode(buf, now)` (42_frame_codec.md R143): the parser's byte rules on a private state, no
timeout, the block's parser and statistics untouched. -/
def frameDecode (c : Config) (buf : List Byte) (now : U32) : Except DecodeError FrameRecord :=
  if buf.head? = some c.startMarker then decodeLoop c now .idle buf else .error .malformed

/-- DECODE (42_frame_codec.md R144). -/
def execDecode (now : U32) (buffer : List Byte) (s : State) : Host.Outcome State Fault Refusal :=
  match frameDecode s.cfg buffer now with
  | .error e => .next (raiseError (decodeErrorStatus e) s)
  | .ok f => .next (respond .frame (frameBytes f) s)

end Sys2Proof.Machine
end

