-- ==== Sys2Proof/Machine/Control.lean ====
section
/-! DEFINITION. Statistics and reset commands (44_control.md). -/

namespace Sys2Proof.Machine

/-- The STATS result fields: each counter zero-extended to a `u32`, in the order of 30_encoding.md
R80 (44_control.md R220). -/
def statsBytes (st : Stats) : List Byte :=
  beBytes 4 st.attempted ++ beBytes 4 st.valid ++ beBytes 4 st.checksumErrors ++
    beBytes 4 st.malformed ++ beBytes 4 st.timeouts

/-- STATS (44_control.md R220). -/
def execStats (s : State) : Host.Outcome State Fault Refusal :=
  .next (respond .ok (statsBytes s.stats) s)

/-- RESET (44_control.md R221). -/
def execReset (s : State) : Host.Outcome State Fault Refusal :=
  .next (respond .ok [] (resetBlock s))

/-- The error rate that a reader of one STATS response computes (44_control.md R222, 10_state.md
R32). No command returns it. -/
def errorRate (attempted checksumErrors malformed timeouts : Nat) : Rat :=
  if attempted = 0 then 0
  else ((checksumErrors + malformed + timeouts : Nat) : Rat) / ((attempted : Nat) : Rat)

end Sys2Proof.Machine
end

