-- ==== Sys2Proof/Machine/Dispatch.lean ====
section
/-! DEFINITION. One arm per command. -/

namespace Sys2Proof.Machine

def exec (i : Instr) (s : State) : Host.Outcome State Fault Refusal :=
  match i with
  | .crc16 data => Sys2Proof.Machine.execCrc16 data s
  | .escape data => Sys2Proof.Machine.execEscape data s
  | .unescape data => Sys2Proof.Machine.execUnescape data s
  | .encode typ payload => Sys2Proof.Machine.execEncode typ payload s
  | .decode now buffer => Sys2Proof.Machine.execDecode now buffer s
  | .feed now byte => Sys2Proof.Machine.execFeed now byte s
  | .tick now => Sys2Proof.Machine.execTick now s
  | .stats => Sys2Proof.Machine.execStats s
  | .reset => Sys2Proof.Machine.execReset s

end Sys2Proof.Machine
end

