-- ==== Sys2Proof/Machine/Step.lean ====
section
/-! DEFINITION. One step: the block takes the first command presented and runs it whole
(20_memory.md R52). -/

namespace Sys2Proof.Machine

/-- One step. An ill-formed configuration is refused (00_scope.md R9; log entry 5); with no command
presented the state is held (60_exceptions.md R261; log entry 4); a command that does not decode is
answered with its error and changes no state (60_exceptions.md R246); any other is run. -/
def step (s : State) : Host.Outcome State Fault Refusal :=
  if s.cfg.wf then
    match takeCommand s with
    | none => .next s
    | some (bytes, s') =>
      match decodeCommand bytes with
      | .error e => .next (raiseError (commandErrorStatus e) s')
      | .ok i => exec i s'
  else .refused .illFormedConfiguration

/-- The host presents the command of a table word first, so that the next step takes it. -/
def State.withFetchWord (s : State) (nbits w : Nat) : State :=
  presentCommand (tableCommand nbits w) s

end Sys2Proof.Machine
end

