-- ==== Sys2Proof/Machine/Assembler.lean ====
section
/-! DEFINITION. The programs' notation: the assembly syntax of 30_encoding.md R87 and the
pseudo-commands of R88. No part of a step: it turns a line of text into the commands a host
presents. The forms the spec leaves open are in log entry 13. -/

namespace Sys2Proof.Machine

/-! ## Pseudo-commands -/

/-- `FEEDS <now>, <span>` (30_encoding.md R88): one FEED per byte, all with the same timestamp. -/
def feeds (now : U32) (data : List Byte) : List Instr := data.map (Instr.feed now)

/-- `FEEDWIRE <now>, <type-span>, <payload-span>` (30_encoding.md R88); not defined when ENCODE
fails. -/
def feedWire (c : Config) (now : U32) (typ payload : List Byte) : Option (List Instr) :=
  match frameEncode c typ payload with
  | .ok wire => some (feeds now wire)
  | .error _ => none

/-! ## Tokens -/

/-- A token of a line (30_encoding.md R87). -/
inductive Token where
  /-- a mnemonic, a number or a symbolic name -/
  | word (chars : List Char)
  /-- a quoted string, its escapes read -/
  | str (bytes : List Byte)
  | comma
  | openBracket
  | closeBracket
deriving DecidableEq, Repr

/-- Where the reader of a line stands. -/
inductive LexMode where
  | blank
  | word (chars : List Char)
  | str (bytes : List Byte)
  /-- after a backslash in a string -/
  | strEscape (bytes : List Byte)
  /-- after `\x` in a string -/
  | strHex (bytes : List Byte)
  /-- after `\x` and one hexadecimal digit -/
  | strHexDigit (bytes : List Byte) (high : Nat)
deriving DecidableEq, Repr

/-- A hexadecimal digit's value, either case (00_scope.md R11). -/
def hexDigit? (ch : Char) : Option Nat :=
  let n := ch.toNat
  if 0x30 ≤ n ∧ n ≤ 0x39 then some (n - 0x30)
  else if 0x41 ≤ n ∧ n ≤ 0x46 then some (n - 0x41 + 10)
  else if 0x61 ≤ n ∧ n ≤ 0x66 then some (n - 0x61 + 10)
  else none

/-- What a character outside words and strings begins: the token it makes, if any, and the mode
after it. -/
def lexBlank (ch : Char) : Option (List Token × LexMode) :=
  if ch = ' ' ∨ ch = '\t' then some ([], .blank)
  else if ch = ',' then some ([.comma], .blank)
  else if ch = '[' then some ([.openBracket], .blank)
  else if ch = ']' then some ([.closeBracket], .blank)
  else if ch = '"' then some ([], .str [])
  else if ch.isAlphanum then some ([], .word [ch])
  else none

/-- The tokens of a line. A `;` outside a string starts a comment (30_encoding.md R87). -/
def lex : LexMode → List Char → Option (List Token)
  | .blank, [] => some []
  | .word w, [] => some [.word w]
  | _, [] => none
  | .blank, ch :: rest =>
    if ch = ';' then some []
    else (lexBlank ch).bind fun (toks, mode) => (lex mode rest).map (toks ++ ·)
  | .word w, ch :: rest =>
    if ch.isAlphanum then lex (.word (w ++ [ch])) rest
    else if ch = ';' then some [.word w]
    else (lexBlank ch).bind fun (toks, mode) => (lex mode rest).map (.word w :: toks ++ ·)
  | .str bs, ch :: rest =>
    if ch = '"' then (lex .blank rest).map (.str bs :: ·)
    else if ch = '\\' then lex (.strEscape bs) rest
    else if ch.toNat < 128 then lex (.str (bs ++ [BitVec.ofNat 8 ch.toNat])) rest
    else none
  | .strEscape bs, ch :: rest =>
    if ch = 'x' then lex (.strHex bs) rest
    else if ch = '\\' ∨ ch = '"' then lex (.str (bs ++ [BitVec.ofNat 8 ch.toNat])) rest
    else none
  | .strHex bs, ch :: rest =>
    match hexDigit? ch with
    | some h => lex (.strHexDigit bs h) rest
    | none => none
  | .strHexDigit bs h, ch :: rest =>
    match hexDigit? ch with
    | some l => lex (.str (bs ++ [BitVec.ofNat 8 (16 * h + l)])) rest
    | none => none

/-! ## Operands -/

/-- A numeral in base `base`, one digit after another. -/
def numeral (base : Nat) : Nat → List Char → Option Nat
  | acc, [] => some acc
  | acc, ch :: rest =>
    match hexDigit? ch with
    | some d => if d < base then numeral base (base * acc + d) rest else none
    | none => none

/-- A decimal or `0x`-hexadecimal number (30_encoding.md R87). -/
def number? : List Char → Option Nat
  | [] => none
  | '0' :: 'x' :: ch :: rest => numeral 16 0 (ch :: rest)
  | ch :: rest => numeral 10 0 (ch :: rest)

/-- A `<byte>`: a number below 256, or the symbolic name of a marker (30_encoding.md R87). -/
def byte? (c : Config) (w : List Char) : Option Byte :=
  if w = "START".toList then some c.startMarker
  else if w = "END".toList then some c.endMarker
  else if w = "ESC".toList then some c.escMarker
  else
    match number? w with
    | some n => if n < 256 then some (BitVec.ofNat 8 n) else none
    | none => none

/-- A `<now>`: a number below `2^32`. -/
def now? : List Token → Option (U32 × List Token)
  | .word w :: rest =>
    match number? w with
    | some n => if n < 2 ^ 32 then some (BitVec.ofNat 32 n, rest) else none
    | none => none
  | _ => none

/-- The numbers of a bracketed list, after its opening bracket. -/
def listed (c : Config) : List Token → Option (List Byte × List Token)
  | .word w :: .closeBracket :: rest => (byte? c w).map fun b => ([b], rest)
  | .word w :: .comma :: rest =>
    (byte? c w).bind fun b => (listed c rest).map fun (bs, more) => (b :: bs, more)
  | _ => none

/-- A `<span>`: a quoted string or a bracketed list (30_encoding.md R87). -/
def span? (c : Config) : List Token → Option (List Byte × List Token)
  | .str bs :: rest => some (bs, rest)
  | .openBracket :: .closeBracket :: rest => some ([], rest)
  | .openBracket :: rest => listed c rest
  | _ => none

/-- The comma between two operands. -/
def afterComma : List Token → Option (List Token)
  | .comma :: rest => some rest
  | _ => none

/-- A line ends after its last operand. -/
def lineEnd (is : List Instr) : List Token → Option (List Instr)
  | [] => some is
  | _ => none

/-! ## Lines -/

/-- One span operand, as CRC16, ESCAPE and UNESCAPE take. -/
def spanLine (c : Config) (make : List Byte → Instr) (toks : List Token) : Option (List Instr) :=
  (span? c toks).bind fun (data, rest) => lineEnd [make data] rest

/-- `<span>, <span>`, as ENCODE takes. -/
def twoSpans (c : Config) (toks : List Token) :
    Option ((List Byte × List Byte) × List Token) :=
  (span? c toks).bind fun (a, rest) =>
    (afterComma rest).bind fun rest' =>
      (span? c rest').map fun (b, rest'') => ((a, b), rest'')

/-- The commands of a line's tokens (30_encoding.md R87, R88). -/
def parseLine (c : Config) : List Token → Option (List Instr)
  | [] => some []
  | .word m :: ops =>
    if m = "CRC16".toList then spanLine c .crc16 ops
    else if m = "ESCAPE".toList then spanLine c .escape ops
    else if m = "UNESCAPE".toList then spanLine c .unescape ops
    else if m = "ENCODE".toList then
      (twoSpans c ops).bind fun ((typ, payload), rest) => lineEnd [.encode typ payload] rest
    else if m = "DECODE".toList then
      (now? ops).bind fun (now, rest) =>
        (afterComma rest).bind fun rest' =>
          (span? c rest').bind fun (buffer, rest'') => lineEnd [.decode now buffer] rest''
    else if m = "FEED".toList then
      (now? ops).bind fun (now, rest) =>
        match rest with
        | .comma :: .word w :: rest' =>
          (byte? c w).bind fun b => lineEnd [.feed now b] rest'
        | _ => none
    else if m = "TICK".toList then (now? ops).bind fun (now, rest) => lineEnd [.tick now] rest
    else if m = "STATS".toList then lineEnd [.stats] ops
    else if m = "RESET".toList then lineEnd [.reset] ops
    else if m = "FEEDS".toList then
      (now? ops).bind fun (now, rest) =>
        (afterComma rest).bind fun rest' =>
          (span? c rest').bind fun (data, rest'') => lineEnd (feeds now data) rest''
    else if m = "FEEDWIRE".toList then
      (now? ops).bind fun (now, rest) =>
        (afterComma rest).bind fun rest' =>
          (twoSpans c rest').bind fun ((typ, payload), rest'') =>
            (feedWire c now typ payload).bind fun is => lineEnd is rest''
    else none
  | _ => none

/-- The command bytes of one line (30_encoding.md R87): none where the line is no line of the
notation or an operand does not fit its field. -/
def assembleLine (c : Config) (line : List Char) : Option (List (List Byte)) :=
  (lex .blank line).bind fun toks =>
    (parseLine c toks).bind fun is =>
      if is.all Instr.WellFormed then some (is.map encodeCommand) else none

/-- The commands of a program, line by line. -/
def assemble (c : Config) : List (List Char) → Option (List (List Byte))
  | [] => some []
  | line :: rest =>
    (assembleLine c line).bind fun cmds => (assemble c rest).map (cmds ++ ·)

end Sys2Proof.Machine
end

