-- ==== Sys2Proof/Safety.lean ====
section
/-! DEFINITION. What claims speak of: the legal states, the balance of the statistics, the pure
commands, and series of commands. -/

namespace Sys2Proof.Machine

/-! ## Legal states -/

/-- The length field as received: three ASCII digits (10_state.md R23). -/
def IsLengthField (d : List Byte) : Prop := d.length = 3 ∧ ∀ b ∈ d, isDigit b = true

/-- The parser states that 10_state.md R23 and R24 allow between two commands, with the escape flag
of R26 and the payload of 43_parser.md R180. -/
def ParserState.Legal (c : Config) : ParserState → Prop
  | .idle => True
  | .readingLength _ lenDigits =>
    lenDigits.length ≤ 3 ∧ ∀ b ∈ lenDigits, isDigit b = true
  | .readingType _ lenDigits typ => IsLengthField lenDigits ∧ typ.length ≤ 3
  | .readingPayload _ lenDigits typ raw esc =>
    IsLengthField lenDigits ∧ typ.length = 3 ∧ 4 + raw.length ≤ c.payloadBudget ∧
      esc = escFlag c raw
  | .readingChecksum _ lenDigits typ raw payload cs =>
    IsLengthField lenDigits ∧ typ.length = 3 ∧ 4 + raw.length ≤ c.payloadBudget ∧
      4 + raw.length = decVal3 lenDigits ∧ unescape c raw = some payload ∧ cs.length ≤ 3

/-- Every counter fits its `COUNTER_WIDTH` bits (10_state.md R29). -/
def Stats.Bounded (c : Config) (st : Stats) : Prop :=
  st.attempted < 2 ^ c.counterWidth ∧ st.valid < 2 ^ c.counterWidth ∧
    st.checksumErrors < 2 ^ c.counterWidth ∧ st.malformed < 2 ^ c.counterWidth ∧
    st.timeouts < 2 ^ c.counterWidth

/-- The states of an instantiated block: a well-formed configuration, a legal parser state and
counters that fit. -/
def State.Inv (s : State) : Prop :=
  s.cfg.wf = true ∧ s.parser.Legal s.cfg ∧ s.stats.Bounded s.cfg

/-- The `a` of 10_state.md R33: 1 with an attempt in progress, 0 in `Idle`. -/
def ParserState.inProgress : ParserState → Nat
  | .idle => 0
  | .readingLength _ _ => 1
  | .readingType _ _ _ => 1
  | .readingPayload _ _ _ _ _ => 1
  | .readingChecksum _ _ _ _ _ _ => 1

/-- The balance of 10_state.md R33, modulo `2^COUNTER_WIDTH`, so that it holds whether or not a
counter has wrapped. -/
def State.Balanced (s : State) : Prop :=
  s.stats.attempted ≡ s.stats.valid + s.stats.checksumErrors + s.stats.malformed +
    s.stats.timeouts + s.parser.inProgress [MOD 2 ^ s.cfg.counterWidth]

/-! ## Commands -/

/-- The pure commands (20_memory.md R61, R62). -/
def isPureCommand : Instr → Bool
  | .crc16 _ => true
  | .escape _ => true
  | .unescape _ => true
  | .encode _ _ => true
  | .decode _ _ => true
  | .stats => true
  | .feed _ _ => false
  | .tick _ => false
  | .reset => false

/-- A series of commands in the host's order (20_memory.md R52): the state after it and the
responses, one per command; `none` where one of them does not answer a next state. -/
def runSeries (s : State) : List Instr → Option (State × List (List Byte))
  | [] => some (s, [])
  | i :: rest =>
    match exec i s with
    | .next t => (runSeries t rest).map fun r => (r.1, t.response.getD [] :: r.2)
    | .fault _ => none
    | .refused _ => none

/-- The private parser of 42_frame_codec.md R143 and R146 over a span, all at one timestamp: its
state after it and its events in order. -/
def parseSpan (c : Config) (now : U32) (q : ParserState) : List Byte → ParserState × List Event
  | [] => (q, [])
  | b :: rest =>
    let r := byteStep c q b now
    let r' := parseSpan c now r.1 rest
    (r'.1, r.2 ++ r'.2)

end Sys2Proof.Machine
end

