-- ==== Sys2Proof/Certificates/Slice0/Obligations.lean ====
section
/-! DEFINITION. The statements for the provers, from the numbered rules of spec/. Every next state
is written out whole, so that each statement carries its frame: the block has no memory, and every
field of `State` not named in the next state is unchanged. -/

open Sys2Proof Sys2Proof.Machine

/-! ## Reset and configuration -/

/-- 70_reset_and_hazards.md R270: power-on and RESET both set every state element to its reset value
of 10_state.md R37, and change no parameter. That the port is empty after power-on is the model's
choice (log entries 2 and 3); RESET's own response is `00`. -/
def Obligations.ResetEventsGiveResetState : Prop :=
  (∀ c : Config, State.powerOn c =
    { cfg := c, parser := .idle, stats := ⟨0, 0, 0, 0, 0⟩, pending := [], response := none }) ∧
  ∀ s : State, exec .reset s =
    .next { s with parser := .idle, stats := ⟨0, 0, 0, 0, 0⟩, response := some [0x00#8] }

/-- 00_scope.md R9: a configuration that breaks one of the items (item 5 holds by the types) is
refused: it is not instantiated, and a state that holds it takes no step. -/
def Obligations.IllFormedConfigurationRefused : Prop :=
  ∀ c : Config,
    ¬ ((c.startMarker ≠ c.endMarker ∧ c.startMarker ≠ c.escMarker ∧ c.endMarker ≠ c.escMarker) ∧
      (∀ m ∈ [c.startMarker, c.endMarker, c.escMarker],
        ¬ (0x30 ≤ m.toNat ∧ m.toNat ≤ 0x39) ∧ ¬ (0x41 ≤ m.toNat ∧ m.toNat ≤ 0x46) ∧
          m ≠ 0x3A#8) ∧
      (∀ m ∈ [c.startMarker, c.endMarker, c.escMarker],
        ∀ n ∈ [c.startMarker, c.endMarker, c.escMarker], m ^^^ 0x20#8 ≠ n) ∧
      (14 ≤ c.maxFrameSize ∧ c.maxFrameSize ≤ 1009) ∧
      c.timeoutMs.toNat < 2 ^ c.timeWidth) →
    State.instantiate c = none ∧
      ∀ s : State, s.cfg = c → step s = .refused .illFormedConfiguration

/-- 60_exceptions.md R253 to R256, 70_reset_and_hazards.md R273: nothing stops an instantiated
block. A configuration that meets R9, and the `COUNTER_WIDTH ≤ 32` of 30_encoding.md R80 (which the
model adds to the well-formed configurations, log entry 7), always steps. -/
def Obligations.InstantiatedBlockAlwaysSteps : Prop :=
  ∀ s : State,
    (s.cfg.startMarker ≠ s.cfg.endMarker ∧ s.cfg.startMarker ≠ s.cfg.escMarker ∧
      s.cfg.endMarker ≠ s.cfg.escMarker) →
    (∀ m ∈ [s.cfg.startMarker, s.cfg.endMarker, s.cfg.escMarker],
      ¬ (0x30 ≤ m.toNat ∧ m.toNat ≤ 0x39) ∧ ¬ (0x41 ≤ m.toNat ∧ m.toNat ≤ 0x46) ∧
        m ≠ 0x3A#8) →
    (∀ m ∈ [s.cfg.startMarker, s.cfg.endMarker, s.cfg.escMarker],
      ∀ n ∈ [s.cfg.startMarker, s.cfg.endMarker, s.cfg.escMarker], m ^^^ 0x20#8 ≠ n) →
    14 ≤ s.cfg.maxFrameSize → s.cfg.maxFrameSize ≤ 1009 →
    s.cfg.timeoutMs.toNat < 2 ^ s.cfg.timeWidth →
    s.cfg.counterWidth ≤ 32 →
    ∃ t, step s = .next t

/-- 00_scope.md R10: no step changes the configuration. -/
def Obligations.ConfigurationNeverChanges : Prop :=
  ∀ s t : State, step s = .next t → t.cfg = s.cfg

/-! ## The command port -/

/-- 20_memory.md R52: the step of a block that has a command runs exactly that command, on the state
without it; the rest of the port is left as it is. -/
def Obligations.StepRunsDecodedCommand : Prop :=
  ∀ (s : State) (bytes : List Byte) (rest : List (List Byte)) (i : Instr),
    s.cfg.wf = true → s.pending = bytes :: rest → decodeCommand bytes = .ok i →
    step s = exec i { s with pending := rest }

/-- The model's choice (log entry 4), after 60_exceptions.md R261 "Between commands it holds its
state unchanged for any length of time": with no command presented a step changes nothing. -/
def Obligations.NoCommandHoldsState : Prop :=
  ∀ s : State, s.cfg.wf = true → s.pending = [] → step s = .next s

/-- 30_encoding.md R83: a command whose first byte is an illegal opcode is answered `FF` and changes
no state, whatever follows the byte. -/
def Obligations.IllegalOpcodeAnsweredFF : Prop :=
  ∀ (s : State) (op : Byte) (operands : List Byte) (rest : List (List Byte)),
    s.cfg.wf = true → s.pending = (op :: operands) :: rest →
    (op.toNat = 0x00 ∨ 0x0A ≤ op.toNat) →
    step s = .next { s with pending := rest, response := some [0xFF#8] }

/-- 30_encoding.md R84: a legal opcode with a byte count that differs from the total length of R79,
and an empty command, are answered `FE` and change no state. The lengths are written out from R79;
a command too short to hold a length prefix is malformed too. -/
def Obligations.WrongLengthAnsweredFE : Prop :=
  ∀ (s : State) (bytes : List Byte) (rest : List (List Byte)),
    s.cfg.wf = true → s.pending = bytes :: rest →
    (bytes = [] ∨
      ((byteAt bytes 0 = 0x01#8 ∨ byteAt bytes 0 = 0x02#8 ∨ byteAt bytes 0 = 0x03#8) ∧
        (bytes.length < 3 ∨
          bytes.length ≠ 3 + ((byteAt bytes 1).toNat * 256 + (byteAt bytes 2).toNat))) ∨
      (byteAt bytes 0 = 0x04#8 ∧
        (bytes.length < 4 + (byteAt bytes 1).toNat ∨
          bytes.length ≠ 4 + (byteAt bytes 1).toNat +
            ((byteAt bytes (2 + (byteAt bytes 1).toNat)).toNat * 256 +
              (byteAt bytes (3 + (byteAt bytes 1).toNat)).toNat))) ∨
      (byteAt bytes 0 = 0x05#8 ∧
        (bytes.length < 7 ∨
          bytes.length ≠ 7 + ((byteAt bytes 5).toNat * 256 + (byteAt bytes 6).toNat))) ∨
      (byteAt bytes 0 = 0x06#8 ∧ bytes.length ≠ 6) ∨
      (byteAt bytes 0 = 0x07#8 ∧ bytes.length ≠ 5) ∨
      (byteAt bytes 0 = 0x08#8 ∧ bytes.length ≠ 1) ∨
      (byteAt bytes 0 = 0x09#8 ∧ bytes.length ≠ 1)) →
    step s = .next { s with pending := rest, response := some [0xFE#8] }

/-- 30_encoding.md R84 and R85: the decoder accepts a byte string exactly when its length is the one
its opcode and length prefixes give it. -/
def Obligations.AcceptedExactlyAtItsLength : Prop :=
  ∀ bytes : List Byte,
    (∃ i, decodeCommand bytes = .ok i) ↔ commandLength bytes = some bytes.length

/-- 30_encoding.md R79: decoding the encoding of a well-formed command gives the command back, with
every operand at every value its field admits. -/
def Obligations.DecodeOfEncode : Prop :=
  ∀ i : Instr, i.WellFormed = true → decodeCommand (encodeCommand i) = .ok i

/-- 30_encoding.md R79 and R86: a byte string that decodes is the encoding of what it decodes to,
which is well formed: every byte string has one meaning and no byte of it is dropped. -/
def Obligations.EncodeOfDecode : Prop :=
  ∀ (bytes : List Byte) (i : Instr),
    decodeCommand bytes = .ok i → i.WellFormed = true ∧ encodeCommand i = bytes

/-- 30_encoding.md R89: the examples' bytes, as the decoder reads them and as the assembler writes
them under the default configuration. -/
def Obligations.ExampleCommands : Prop :=
  ∀ e ∈ [("FEED 0, START", [0x06#8, 0x00#8, 0x00#8, 0x00#8, 0x00#8, 0x02#8], Instr.feed 0 2),
      ("TICK 6000", [0x07#8, 0x00#8, 0x00#8, 0x17#8, 0x70#8], Instr.tick 6000),
      ("CRC16 \"123456789\"",
        [0x01#8, 0x00#8, 0x09#8, 0x31#8, 0x32#8, 0x33#8, 0x34#8, 0x35#8, 0x36#8, 0x37#8, 0x38#8,
          0x39#8],
        Instr.crc16 [0x31, 0x32, 0x33, 0x34, 0x35, 0x36, 0x37, 0x38, 0x39]),
      ("ENCODE \"ABC\", \"hello\"",
        [0x04#8, 0x03#8, 0x41#8, 0x42#8, 0x43#8, 0x00#8, 0x05#8, 0x68#8, 0x65#8, 0x6C#8, 0x6C#8,
          0x6F#8],
        Instr.encode [0x41, 0x42, 0x43] [0x68, 0x65, 0x6C, 0x6C, 0x6F]),
      ("UNESCAPE [0x1B, 0x22]", [0x03#8, 0x00#8, 0x02#8, 0x1B#8, 0x22#8],
        Instr.unescape [0x1B, 0x22]),
      ("STATS", [0x08#8], Instr.stats),
      ("RESET", [0x09#8], Instr.reset)],
    decodeCommand e.2.1 = .ok e.2.2 ∧ assembleLine Config.default e.1.toList = some [e.2.1]

/-- 30_encoding.md R88: FEEDS is one FEED per byte, in order, all with the same timestamp; FEEDWIRE
is FEEDS of the wire frame that the ENCODE of its operands answers, and is not defined when that
ENCODE fails. -/
def Obligations.PseudoCommandsExpand : Prop :=
  (∀ (now : U32) (data : List Byte),
    (feeds now data).length = data.length ∧
      ∀ (k : Nat) (b : Byte), data[k]? = some b → (feeds now data)[k]? = some (.feed now b)) ∧
  ∀ (s t : State) (now : U32) (typ payload : List Byte),
    exec (.encode typ payload) s = .next t →
    (∀ wire, t.response = some (0x00#8 :: beBytes 4 wire.length ++ wire) →
      feedWire s.cfg now typ payload = some (feeds now wire)) ∧
    (∀ code, code ≠ 0x00#8 → t.response = some [code] → feedWire s.cfg now typ payload = none)

/-- 60_exceptions.md R241: the status byte of every response is one the table gives the command, and
an error response is the one status byte. -/
def Obligations.StatusByteIsOfTable : Prop :=
  ∀ (s t : State) (bytes : List Byte) (rest : List (List Byte)),
    s.pending = bytes :: rest → step s = .next t →
    ∃ code fields, t.response = some (code :: fields) ∧
      (code ≠ 0x00#8 → code ≠ 0x01#8 → fields = []) ∧
      match decodeCommand bytes with
      | .error .illegalCommand => code = 0xFF#8
      | .error .malformedCommand => code = 0xFE#8
      | .ok (.crc16 _) => code = 0x00#8
      | .ok (.escape _) => code = 0x00#8
      | .ok (.unescape _) => code = 0x00#8 ∨ code = 0x20#8
      | .ok (.encode _ _) => code = 0x00#8 ∨ code = 0x10#8 ∨ code = 0x11#8
      | .ok (.decode _ _) => code = 0x01#8 ∨ code = 0x30#8 ∨ code = 0x31#8
      | .ok (.feed _ _) => code = 0x00#8 ∨ code = 0x01#8
      | .ok (.tick _) => code = 0x00#8
      | .ok .stats => code = 0x00#8
      | .ok .reset => code = 0x00#8

/-- 60_exceptions.md R240 item 1, R253: a command that fails with a reported error changes no
state. -/
def Obligations.ReportedErrorChangesNoState : Prop :=
  ∀ (s t : State) (bytes : List Byte) (rest : List (List Byte)) (code : Byte) (fields : List Byte),
    s.pending = bytes :: rest → step s = .next t → t.response = some (code :: fields) →
    code ≠ 0x00#8 → code ≠ 0x01#8 →
    t = { s with pending := rest, response := some [code] }

/-- 70_reset_and_hazards.md R279: the sizes the host must accept, from a legal state and a command
the port can carry. CRC16, TICK and RESET are not in R279's list; their sizes are R80's. -/
def Obligations.ResponseSizes : Prop :=
  ∀ (s t : State) (i : Instr), s.Inv → i.WellFormed = true → exec i s = .next t →
    ∃ r, t.response = some r ∧
      match i with
      | .crc16 _ => r.length = 3
      | .escape _ => r.length ≤ 5 + 2 * 65535
      | .unescape _ => r.length ≤ 5 + 65535
      | .encode _ _ => r.length ≤ 5 + s.cfg.maxFrameSize
      | .decode _ _ => r.length ≤ 1 + (11 + (s.cfg.payloadBudget - 4))
      | .feed _ _ => r.length ≤ 1 + (11 + (s.cfg.payloadBudget - 4))
      | .tick _ => r.length = 1
      | .stats => r.length = 21
      | .reset => r.length = 1

/-! ## CRC Engine -/

/-- 40_crc.md R106, 30_encoding.md R80: CRC16 answers `00` and the checksum, most significant byte
first, and writes no state. -/
def Obligations.Crc16AnswersChecksum : Prop :=
  ∀ (data : List Byte) (s : State), exec (.crc16 data) s =
    .next { s with
      response := some [0x00#8, (crc16 s.cfg data).extractLsb' 8 8,
        (crc16 s.cfg data).extractLsb' 0 8] }

/-- 40_crc.md R103: CRC16 has no error condition, and the checksum of the empty span is the initial
register, reflected where the configuration says so, with the final XOR. -/
def Obligations.Crc16TotalAndEmpty : Prop :=
  (∀ (data : List Byte) (s : State), ∃ t fields,
    exec (.crc16 data) s = .next t ∧ t.response = some (0x00#8 :: fields)) ∧
  ∀ c : Config,
    (c.crcRefout = false → crc16 c [] = c.crcInit ^^^ c.crcXorout) ∧
    (c.crcRefout = true → crc16 c [] = reflect16 c.crcInit ^^^ c.crcXorout)

/-- 40_crc.md R100, the loop and the output stage, for every configuration and span: `CRC_REFIN` and
`CRC_REFOUT` may differ. `shift` keeps bits 15..0 of `r << 1`, and the `u8` is in bits 15..8 when it
is added. Where `reflect8` and `reflect16` move each bit is `Obligations.ReflectMovesBits`. -/
def Obligations.Crc16RunsByteLoop : Prop :=
  ∀ c : Config,
    let shift := fun r : U16 =>
      if r.getLsbD 15 = true then BitVec.ofNat 16 (2 * r.toNat) ^^^ c.crcPoly
      else BitVec.ofNat 16 (2 * r.toNat)
    let register := crcRegister c c.crcInit
    register [] = c.crcInit ∧
    (∀ (data : List Byte) (b : Byte),
      (c.crcRefin = false → register (data ++ [b]) =
        shift (shift (shift (shift (shift (shift (shift (shift
          (register data ^^^ BitVec.ofNat 16 (256 * b.toNat)))))))))) ∧
      (c.crcRefin = true → register (data ++ [b]) =
        shift (shift (shift (shift (shift (shift (shift (shift
          (register data ^^^ BitVec.ofNat 16 (256 * (reflect8 b).toNat))))))))))) ∧
    ∀ data : List Byte,
      (c.crcRefout = false → crc16 c data = register data ^^^ c.crcXorout) ∧
      (c.crcRefout = true → crc16 c data = reflect16 (register data) ^^^ c.crcXorout)

/-- 40_crc.md R101: where `reflect8` and `reflect16` move each bit. -/
def Obligations.ReflectMovesBits : Prop :=
  (∀ (b : Byte) (k : Nat), k < 8 → (reflect8 b).getLsbD (7 - k) = b.getLsbD k) ∧
  ∀ (r : U16) (k : Nat), k < 16 → (reflect16 r).getLsbD (15 - k) = r.getLsbD k

/-- 40_crc.md R107: both tables of values. -/
def Obligations.Crc16TableValues : Prop :=
  (∀ e ∈ [([], 0xFFFF#16), ([0x00#8], 0xE1F0#16), ([0xFF#8], 0xFF00#16), ([0x41#8], 0xB915#16),
      ([0x02#8], 0xC1B2#16), ([0x41#8, 0x42#8, 0x43#8], 0xF508#16),
      ([0x31#8, 0x32#8, 0x33#8, 0x34#8, 0x35#8, 0x36#8, 0x37#8, 0x38#8, 0x39#8], 0x29B1#16),
      ([0x30#8, 0x30#8, 0x34#8, 0x3A#8, 0x50#8, 0x4E#8, 0x47#8, 0x3A#8], 0x3DD7#16),
      ([0x30#8, 0x30#8, 0x39#8, 0x3A#8, 0x41#8, 0x42#8, 0x43#8, 0x3A#8, 0x68#8, 0x65#8, 0x6C#8,
        0x6C#8, 0x6F#8], 0x54F4#16)],
    crc16 Config.default e.1 = e.2) ∧
  ∀ e ∈ [(0x1021#16, 0x0000#16, false, 0x0000#16, 0x31C3#16),
      (0x8005#16, 0x0000#16, true, 0x0000#16, 0xBB3D#16),
      (0x8005#16, 0xFFFF#16, true, 0x0000#16, 0x4B37#16),
      (0x1021#16, 0x0000#16, true, 0x0000#16, 0x2189#16),
      (0x1021#16, 0xFFFF#16, true, 0xFFFF#16, 0x906E#16)],
    crc16 { Config.default with
        crcPoly := e.1, crcInit := e.2.1, crcRefin := e.2.2.1, crcRefout := e.2.2.1,
        crcXorout := e.2.2.2.1 }
      [0x31#8, 0x32#8, 0x33#8, 0x34#8, 0x35#8, 0x36#8, 0x37#8, 0x38#8, 0x39#8] = e.2.2.2.2

/-- 40_crc.md R105, for every polynomial with a non-zero constant term, the default among them: a
change of a single byte of the checked span changes the checksum. -/
def Obligations.SingleByteChangeChangesChecksum : Prop :=
  Config.default.crcPoly.getLsbD 0 = true ∧
  ∀ (c : Config) (before after : List Byte) (x y : Byte),
    c.crcPoly.getLsbD 0 = true → x ≠ y →
    crc16 c (before ++ x :: after) ≠ crc16 c (before ++ y :: after)

/-! ## Escape Codec -/

/-- 41_escape.md R124: ESCAPE answers `00`, the length of the escaped span as a `u32` and the span,
and writes no state. -/
def Obligations.EscapeAnswersStuffedSpan : Prop :=
  ∀ (data : List Byte) (s : State), exec (.escape data) s =
    .next { s with
      response := some (0x00#8 :: beBytes 4 (escape s.cfg data).length ++ escape s.cfg data) }

/-- 41_escape.md R125, 60_exceptions.md R244: UNESCAPE answers the unescaped span, or `20` where an
ESC is left without a byte after it, and writes no state. -/
def Obligations.UnescapeAnswersSpanOrError : Prop :=
  ∀ (data : List Byte) (s : State),
    (∀ out, unescape s.cfg data = some out → exec (.unescape data) s =
      .next { s with response := some (0x00#8 :: beBytes 4 out.length ++ out) }) ∧
    (unescape s.cfg data = none →
      exec (.unescape data) s = .next { s with response := some [0x20#8] })

/-- 41_escape.md R123, its five items. Item 2 rests on 00_scope.md R9 and item 4 on the default
markers, as the rule says; item 5's pairing is the escape flag of 10_state.md R26. -/
def Obligations.EscapeProperties : Prop :=
  (∀ (c : Config) (x : List Byte), unescape c (escape c x) = some x) ∧
  (∀ (c : Config) (x : List Byte), c.wf = true →
    c.startMarker ∉ escape c x ∧ c.endMarker ∉ escape c x ∧
      ∀ k : Nat, (escape c x)[k]? = some c.escMarker →
        ∃ b, (escape c x)[k + 1]? = some b ∧ c.isReserved b = false) ∧
  (∀ (c : Config) (x : List Byte),
    (escape c x).length = x.length + x.countP c.isReserved ∧
      x.length ≤ (escape c x).length ∧ (escape c x).length ≤ 2 * x.length) ∧
  (unescape Config.default [0x1B#8, 0x41#8] = some [0x61#8] ∧
    escape Config.default [0x61#8] = [0x61#8]) ∧
  ∀ (c : Config) (d : List Byte), unescape c d = none ↔ escFlag c d = true

/-- 41_escape.md R122: a pair `ESC, x` is accepted for every byte `x`, and START or END standing
alone passes through. -/
def Obligations.UnescapeAcceptsEveryPair : Prop :=
  ∀ (c : Config) (rest out : List Byte), unescape c rest = some out →
    (∀ x : Byte, unescape c (c.escMarker :: x :: rest) = some ((x ^^^ 0x20#8) :: out)) ∧
    ∀ b : Byte, b ≠ c.escMarker → unescape c (b :: rest) = some (b :: out)

/-! ## Frame Codec -/

/-- 42_frame_codec.md R140 with the layout of 30_encoding.md R70 to R72: ENCODE answers `10` for a
type that is not 3 bytes, else `11` for a content over the budget, else `00` and the wire frame; it
writes no state. -/
def Obligations.EncodeAnswersWireFrame : Prop :=
  ∀ (typ payload : List Byte) (s : State),
    let e := escape s.cfg payload
    let headed := dec3 (4 + e.length) ++ [0x3A#8] ++ typ ++ [0x3A#8] ++ e
    let wire := [s.cfg.startMarker] ++ headed ++ [s.cfg.endMarker] ++ hex4 (crc16 s.cfg headed)
    (typ.length ≠ 3 → exec (.encode typ payload) s =
      .next { s with response := some [0x10#8] }) ∧
    (typ.length = 3 → s.cfg.payloadBudget < 4 + e.length → exec (.encode typ payload) s =
      .next { s with response := some [0x11#8] }) ∧
    (typ.length = 3 → 4 + e.length ≤ s.cfg.payloadBudget → exec (.encode typ payload) s =
      .next { s with response := some (0x00#8 :: beBytes 4 wire.length ++ wire) })

/-- 30_encoding.md R74: a wire frame is 10 bytes longer than its content, and at most
`MAX_FRAME_SIZE` bytes. -/
def Obligations.WireFrameFitsMaxFrameSize : Prop :=
  ∀ (c : Config) (typ payload wire : List Byte), c.wf = true →
    frameEncode c typ payload = .ok wire →
    wire.length = 10 + (typ.length + 1 + (escape c payload).length) ∧
      wire.length ≤ c.maxFrameSize

/-- 30_encoding.md R75: where the markers may stand in a frame that ENCODE produces. Offsets 5 to 7
are the type code, which is not escaped. -/
def Obligations.MarkersInWireFrame : Prop :=
  ∀ (c : Config) (typ payload wire : List Byte), c.wf = true →
    frameEncode c typ payload = .ok wire →
    ∀ (k : Nat) (b : Byte), wire[k]? = some b → ¬ (5 ≤ k ∧ k ≤ 7) →
      (b = c.startMarker → k = 0) ∧
      (b = c.endMarker → k = 9 + (escape c payload).length) ∧
      (b = c.escMarker → 9 ≤ k ∧ k < 9 + (escape c payload).length ∧
        ∃ b', wire[k + 1]? = some b' ∧ c.isReserved b' = false)

/-- 00_scope.md R12, 20_memory.md R56: the numerals of the wire, digit by digit, most significant
digit first, with R12's `H` written out; they determine their values, and a checksum field has no
marker in it. -/
def Obligations.NumeralsDetermineValues : Prop :=
  let H := fun x : Nat =>
    if x ≤ 9 then BitVec.ofNat 8 (0x30 + x) else BitVec.ofNat 8 (0x41 + (x - 10))
  (∀ n : Nat, n ≤ 999 →
    dec3 n = [BitVec.ofNat 8 (0x30 + n / 100), BitVec.ofNat 8 (0x30 + n / 10 % 10),
      BitVec.ofNat 8 (0x30 + n % 10)] ∧
    decVal3 (dec3 n) = n ∧ IsLengthField (dec3 n)) ∧
  (∀ d0 d1 d2 : Byte, IsLengthField [d0, d1, d2] →
    decVal3 [d0, d1, d2] =
      100 * (d0.toNat - 0x30) + 10 * (d1.toNat - 0x30) + (d2.toNat - 0x30)) ∧
  (∀ d : List Byte, IsLengthField d → dec3 (decVal3 d) = d) ∧
  (∀ v : U16, hex4 v =
    [H (v.toNat / 2 ^ 12), H (v.toNat / 2 ^ 8 % 16), H (v.toNat / 2 ^ 4 % 16),
      H (v.toNat % 16)]) ∧
  (∀ v w : U16, hex4 v = hex4 w → v = w) ∧
  (∀ (v : U16) (b : Byte), b ∈ hex4 v →
    (0x30 ≤ b.toNat ∧ b.toNat ≤ 0x39) ∨ (0x41 ≤ b.toNat ∧ b.toNat ≤ 0x46)) ∧
  hex4 0x54F4#16 = [0x35#8, 0x34#8, 0x46#8, 0x34#8]

/-- 42_frame_codec.md R144, 30_encoding.md R81: DECODE answers `01` and the frame record, or `30`, or
`31`, and writes no state. -/
def Obligations.DecodeAnswersFrameOrError : Prop :=
  ∀ (now : U32) (buffer : List Byte) (s : State),
    (∀ f, frameDecode s.cfg buffer now = .ok f → exec (.decode now buffer) s =
      .next { s with
        response := some (0x01#8 :: (f.typ ++ beBytes 2 f.payload.length ++ f.payload ++
          beBytes 2 f.checksum.toNat ++ beBytes 4 f.receivedAt.toNat)) }) ∧
    (frameDecode s.cfg buffer now = .error .malformed → exec (.decode now buffer) s =
      .next { s with response := some [0x30#8] }) ∧
    (frameDecode s.cfg buffer now = .error .checksumMismatch → exec (.decode now buffer) s =
      .next { s with response := some [0x31#8] })

/-- 42_frame_codec.md R146: when DECODE returns a frame. -/
def Obligations.DecodeAgreesWithParser : Prop :=
  ∀ (c : Config) (buf : List Byte) (now : U32) (f : FrameRecord),
    frameDecode c buf now = .ok f ↔
      buf.head? = some c.startMarker ∧
      ∃ before last, buf = before ++ [last] ∧
        (∀ e ∈ (parseSpan c now .idle before).2, e = Event.begin) ∧
        Event.frame f ∈ (byteStep c (parseSpan c now .idle before).1 last now).2

/-- 42_frame_codec.md R143, R144: DecodeChecksumMismatch exactly when the mismatch is found on the
buffer's last byte, with no failure and no frame before it. -/
def Obligations.DecodeMismatchOnLastByte : Prop :=
  ∀ (c : Config) (buf : List Byte) (now : U32),
    frameDecode c buf now = .error .checksumMismatch ↔
      buf.head? = some c.startMarker ∧
      ∃ before last, buf = before ++ [last] ∧
        (∀ e ∈ (parseSpan c now .idle before).2, e = Event.begin) ∧
        Event.mismatch ∈ (byteStep c (parseSpan c now .idle before).1 last now).2

/-- 42_frame_codec.md R145: DECODE of what ENCODE made gives the type and payload back. The last
hypothesis is the model's reading of R145 beside 43_parser.md R186 (log entry 9): with
`RESYNC_ON_START = true` a START in the type ends the frame. -/
def Obligations.DecodeInvertsEncode : Prop :=
  ∀ (c : Config) (typ payload wire : List Byte) (now : U32), c.wf = true →
    frameEncode c typ payload = .ok wire →
    (c.resyncOnStart = false ∨ c.startMarker ∉ typ) →
    frameDecode c wire now = .ok ⟨typ, payload,
      crc16 c (dec3 (4 + (escape c payload).length) ++ [0x3A#8] ++ typ ++ [0x3A#8] ++
        escape c payload), now⟩

/-- 43_parser.md R186 against 42_frame_codec.md R145 (log entry 9): with `RESYNC_ON_START = true` a
frame whose type holds a START decodes to DecodeMalformed. -/
def Obligations.ResyncRefusesStartInType : Prop :=
  ∀ (c : Config) (typ payload wire : List Byte) (now : U32), c.wf = true →
    frameEncode c typ payload = .ok wire →
    c.resyncOnStart = true → c.startMarker ∈ typ →
    frameDecode c wire now = .error .malformed

/-! ## Frame Parser: one FEED or TICK -/

/-- 20_memory.md R53, R54: elapsed time is the difference modulo `2^TIME_WIDTH`, so a timestamp `d`
earlier than the START's gives `2^TIME_WIDTH - d`. That a timestamp stays a `u32` when `TIME_WIDTH`
is not 32 is the model's reading (log entry 6). -/
def Obligations.ElapsedIsModular : Prop :=
  ∀ (c : Config) (start now : U32),
    ((elapsed c start now : Nat) : Int) =
      ((now.toNat : Int) - (start.toNat : Int)) % ((2 ^ c.timeWidth : Nat) : Int) ∧
    (∀ d : Nat, start.toNat ≤ now.toNat → now.toNat = start.toNat + d → d < 2 ^ c.timeWidth →
      elapsed c start now = d) ∧
    ∀ d : Nat, 0 < d → d < 2 ^ c.timeWidth → start.toNat = now.toNat + d →
      elapsed c start now = 2 ^ c.timeWidth - d

/-- 43_parser.md R171, R172: TICK answers `00`; it abandons an attempt that has lasted more than
`TIMEOUT_MS`, and changes nothing else. -/
def Obligations.TickAppliesTimeout : Prop :=
  ∀ (now : U32) (s : State),
    (s.parser = .idle → exec (.tick now) s = .next { s with response := some [0x00#8] }) ∧
    ∀ start, s.parser.start? = some start →
      (elapsed s.cfg start now ≤ s.cfg.timeoutMs.toNat →
        exec (.tick now) s = .next { s with response := some [0x00#8] }) ∧
      (s.cfg.timeoutMs.toNat < elapsed s.cfg start now →
        exec (.tick now) s = .next { s with
          parser := .idle,
          stats := { s.stats with timeouts := (s.stats.timeouts + 1) % 2 ^ s.cfg.counterWidth },
          response := some [0x00#8] })

/-- 43_parser.md R174: FEED in `Idle`. -/
def Obligations.FeedInIdle : Prop :=
  ∀ (now : U32) (b : Byte) (s : State), s.parser = .idle →
    (b = s.cfg.startMarker → exec (.feed now b) s = .next { s with
      parser := .readingLength now [],
      stats := { s.stats with attempted := (s.stats.attempted + 1) % 2 ^ s.cfg.counterWidth },
      response := some [0x00#8] }) ∧
    (b ≠ s.cfg.startMarker →
      exec (.feed now b) s = .next { s with response := some [0x00#8] })

/-- 43_parser.md R175 and R176: FEED in `ReadingLength`. -/
def Obligations.FeedInReadingLength : Prop :=
  ∀ (now start : U32) (lenDigits : List Byte) (b : Byte) (s : State),
    s.parser = .readingLength start lenDigits →
    elapsed s.cfg start now ≤ s.cfg.timeoutMs.toNat →
    (s.cfg.resyncOnStart = false ∨ b ≠ s.cfg.startMarker) →
    let fails := Host.Outcome.next (φ := Fault) (ρ := Refusal) { s with
      parser := .idle,
      stats := { s.stats with malformed := (s.stats.malformed + 1) % 2 ^ s.cfg.counterWidth },
      response := some [0x00#8] }
    (lenDigits.length < 3 → 0x30 ≤ b.toNat → b.toNat ≤ 0x39 → exec (.feed now b) s = .next { s with
      parser := .readingLength start (lenDigits ++ [b]), response := some [0x00#8] }) ∧
    (lenDigits.length < 3 → ¬ (0x30 ≤ b.toNat ∧ b.toNat ≤ 0x39) →
      exec (.feed now b) s = fails) ∧
    (lenDigits.length = 3 → b = 0x3A#8 → exec (.feed now b) s = .next { s with
      parser := .readingType start lenDigits [], response := some [0x00#8] }) ∧
    (lenDigits.length = 3 → b ≠ 0x3A#8 → exec (.feed now b) s = fails)

/-- 43_parser.md R177 and R178: FEED in `ReadingType`. -/
def Obligations.FeedInReadingType : Prop :=
  ∀ (now start : U32) (lenDigits typ : List Byte) (b : Byte) (s : State),
    s.parser = .readingType start lenDigits typ →
    elapsed s.cfg start now ≤ s.cfg.timeoutMs.toNat →
    (s.cfg.resyncOnStart = false ∨ b ≠ s.cfg.startMarker) →
    (typ.length < 3 → exec (.feed now b) s = .next { s with
      parser := .readingType start lenDigits (typ ++ [b]), response := some [0x00#8] }) ∧
    (typ.length = 3 → b = 0x3A#8 → exec (.feed now b) s = .next { s with
      parser := .readingPayload start lenDigits typ [] false, response := some [0x00#8] }) ∧
    (typ.length = 3 → b ≠ 0x3A#8 → exec (.feed now b) s = .next { s with
      parser := .idle,
      stats := { s.stats with malformed := (s.stats.malformed + 1) % 2 ^ s.cfg.counterWidth },
      response := some [0x00#8] })

/-- 43_parser.md R179, R181, R182 and R183: a FEED that keeps a payload byte. After an ESC every byte
is kept, START and END among them; the flag is set by an ESC that arrives while it is clear. -/
def Obligations.FeedKeepsPayloadByte : Prop :=
  ∀ (now start : U32) (lenDigits typ raw : List Byte) (esc : Bool) (b : Byte) (s : State),
    s.parser = .readingPayload start lenDigits typ raw esc →
    elapsed s.cfg start now ≤ s.cfg.timeoutMs.toNat →
    (esc = true ∨ (b ≠ s.cfg.endMarker ∧
      (s.cfg.resyncOnStart = false ∨ b ≠ s.cfg.startMarker))) →
    (4 + (raw.length + 1) ≤ s.cfg.payloadBudget → exec (.feed now b) s = .next { s with
      parser := .readingPayload start lenDigits typ (raw ++ [b])
        (if esc = false ∧ b = s.cfg.escMarker then true else false),
      response := some [0x00#8] }) ∧
    (s.cfg.payloadBudget < 4 + (raw.length + 1) → exec (.feed now b) s = .next { s with
      parser := .idle,
      stats := { s.stats with malformed := (s.stats.malformed + 1) % 2 ^ s.cfg.counterWidth },
      response := some [0x00#8] })

/-- 43_parser.md R180: the unescaped END of a payload, in the legal states. The length compared is
that of the escaped content, and the unescaping cannot fail. -/
def Obligations.FeedEndsPayload : Prop :=
  ∀ (now start : U32) (lenDigits typ raw : List Byte) (s : State), s.Inv →
    s.parser = .readingPayload start lenDigits typ raw false →
    elapsed s.cfg start now ≤ s.cfg.timeoutMs.toNat →
    (4 + raw.length ≠ decVal3 lenDigits → exec (.feed now s.cfg.endMarker) s = .next { s with
      parser := .idle,
      stats := { s.stats with malformed := (s.stats.malformed + 1) % 2 ^ s.cfg.counterWidth },
      response := some [0x00#8] }) ∧
    (4 + raw.length = decVal3 lenDigits → ∃ payload, unescape s.cfg raw = some payload ∧
      exec (.feed now s.cfg.endMarker) s = .next { s with
        parser := .readingChecksum start lenDigits typ raw payload [],
        response := some [0x00#8] })

/-- 43_parser.md R184 and R185: FEED in `ReadingChecksum`. The fourth byte completes the frame when
the four bytes are the uppercase rendering of the expected checksum, and is a mismatch otherwise. -/
def Obligations.FeedInReadingChecksum : Prop :=
  ∀ (now start : U32) (lenDigits typ raw payload cs : List Byte) (b : Byte) (s : State),
    s.parser = .readingChecksum start lenDigits typ raw payload cs →
    elapsed s.cfg start now ≤ s.cfg.timeoutMs.toNat →
    (s.cfg.resyncOnStart = false ∨ b ≠ s.cfg.startMarker) →
    let expected := crc16 s.cfg (lenDigits ++ [0x3A#8] ++ typ ++ [0x3A#8] ++ raw)
    (cs.length < 3 → exec (.feed now b) s = .next { s with
      parser := .readingChecksum start lenDigits typ raw payload (cs ++ [b]),
      response := some [0x00#8] }) ∧
    (cs.length = 3 → cs ++ [b] = hex4 expected → exec (.feed now b) s = .next { s with
      parser := .idle,
      stats := { s.stats with valid := (s.stats.valid + 1) % 2 ^ s.cfg.counterWidth },
      response := some (0x01#8 :: frameBytes ⟨typ, payload, expected, now⟩) }) ∧
    (cs.length = 3 → cs ++ [b] ≠ hex4 expected → exec (.feed now b) s = .next { s with
      parser := .idle,
      stats := { s.stats with
        checksumErrors := (s.stats.checksumErrors + 1) % 2 ^ s.cfg.counterWidth },
      response := some [0x00#8] })

/-- 43_parser.md R186: with `RESYNC_ON_START = true` a START ends the attempt in progress as
malformed and begins a new one, unless it stands after an ESC in the payload; with `false` the state's
own arm takes every byte. -/
def Obligations.FeedResynchronises : Prop :=
  (∀ (now start : U32) (s : State),
    s.parser.start? = some start →
    elapsed s.cfg start now ≤ s.cfg.timeoutMs.toNat →
    s.cfg.resyncOnStart = true →
    (∀ start' lenDigits typ raw, s.parser ≠ .readingPayload start' lenDigits typ raw true) →
    exec (.feed now s.cfg.startMarker) s = .next { s with
      parser := .readingLength now [],
      stats := { s.stats with
        malformed := (s.stats.malformed + 1) % 2 ^ s.cfg.counterWidth,
        attempted := (s.stats.attempted + 1) % 2 ^ s.cfg.counterWidth },
      response := some [0x00#8] }) ∧
  ∀ (c : Config) (q : ParserState) (b : Byte) (now : U32), c.resyncOnStart = false →
    byteStep c q b now = ((byteArm c q b now).1, (byteArm c q b now).2.toList)

/-- 60_exceptions.md R251, 43_parser.md R173: a FEED that finds the attempt timed out counts one
timeout; a START then begins a new attempt, and any other byte is discarded. -/
def Obligations.FeedFindsTimeout : Prop :=
  ∀ (now start : U32) (b : Byte) (s : State),
    s.parser.start? = some start →
    s.cfg.timeoutMs.toNat < elapsed s.cfg start now →
    (b = s.cfg.startMarker → exec (.feed now b) s = .next { s with
      parser := .readingLength now [],
      stats := { s.stats with
        timeouts := (s.stats.timeouts + 1) % 2 ^ s.cfg.counterWidth,
        attempted := (s.stats.attempted + 1) % 2 ^ s.cfg.counterWidth },
      response := some [0x00#8] }) ∧
    (b ≠ s.cfg.startMarker → exec (.feed now b) s = .next { s with
      parser := .idle,
      stats := { s.stats with timeouts := (s.stats.timeouts + 1) % 2 ^ s.cfg.counterWidth },
      response := some [0x00#8] })

/-- 43_parser.md R193: the events of one FEED, and so how far it moves each counter. Each of the five
numbers is how often the FEED counts. -/
def Obligations.FeedEventBounds : Prop :=
  ∀ (now : U32) (b : Byte) (s t : State), exec (.feed now b) s = .next t →
    ∃ a v k m o : Nat,
      t.stats.attempted = (if a = 0 then s.stats.attempted else
        (s.stats.attempted + 1) % 2 ^ s.cfg.counterWidth) ∧
      t.stats.valid = (if v = 0 then s.stats.valid else
        (s.stats.valid + 1) % 2 ^ s.cfg.counterWidth) ∧
      t.stats.checksumErrors = (if k = 0 then s.stats.checksumErrors else
        (s.stats.checksumErrors + 1) % 2 ^ s.cfg.counterWidth) ∧
      t.stats.malformed = (if m = 0 then s.stats.malformed else
        (s.stats.malformed + 1) % 2 ^ s.cfg.counterWidth) ∧
      t.stats.timeouts = (if o = 0 then s.stats.timeouts else
        (s.stats.timeouts + 1) % 2 ^ s.cfg.counterWidth) ∧
      a ≤ 1 ∧ o ≤ 1 ∧ v + k + m ≤ 1 ∧
      (o = 1 → v + k + m = 0) ∧
      (a = 1 → v + k = 0) ∧
      (a = 1 → m = 1 → s.cfg.resyncOnStart = true)

/-- 43_parser.md R190: an emitted frame's checksum is that of the length field, type and escaped
payload received, whose length is the declared one. -/
def Obligations.EmittedFrameChecksumMatches : Prop :=
  ∀ (now : U32) (b : Byte) (s t : State) (fields : List Byte), s.Inv →
    exec (.feed now b) s = .next t → t.response = some (0x01#8 :: fields) →
    ∃ start lenDigits typ raw payload cs,
      s.parser = .readingChecksum start lenDigits typ raw payload cs ∧
      fields = frameBytes ⟨typ, payload,
        crc16 s.cfg (lenDigits ++ [0x3A#8] ++ typ ++ [0x3A#8] ++ raw), now⟩ ∧
      cs ++ [b] = hex4 (crc16 s.cfg (lenDigits ++ [0x3A#8] ++ typ ++ [0x3A#8] ++ raw)) ∧
      unescape s.cfg raw = some payload ∧
      4 + raw.length = decVal3 lenDigits

/-- 43_parser.md R192: after a FEED or a TICK at `now`, no attempt older than `TIMEOUT_MS` is in
progress. -/
def Obligations.NoAttemptOutlivesTimeout : Prop :=
  ∀ (i : Instr) (now : U32) (s t : State),
    (i = .tick now ∨ ∃ b, i = .feed now b) → exec i s = .next t →
    ∀ start, t.parser.start? = some start → elapsed s.cfg start now ≤ s.cfg.timeoutMs.toNat

/-! ## Statistics and control -/

/-- 44_control.md R220: STATS answers `00` and the five counters as big-endian `u32`s, in order, and
writes no state; the counters fit in any legal state. -/
def Obligations.StatsAnswersCounters : Prop :=
  ∀ s : State,
    exec .stats s = .next { s with
      response := some (0x00#8 :: (beBytes 4 s.stats.attempted ++ beBytes 4 s.stats.valid ++
        beBytes 4 s.stats.checksumErrors ++ beBytes 4 s.stats.malformed ++
        beBytes 4 s.stats.timeouts)) } ∧
    (s.Inv →
      beNat (beBytes 4 s.stats.attempted) = s.stats.attempted ∧
      beNat (beBytes 4 s.stats.valid) = s.stats.valid ∧
      beNat (beBytes 4 s.stats.checksumErrors) = s.stats.checksumErrors ∧
      beNat (beBytes 4 s.stats.malformed) = s.stats.malformed ∧
      beNat (beBytes 4 s.stats.timeouts) = s.stats.timeouts)

/-- 20_memory.md R61: a pure command writes no state, and its response depends on its operands (and,
for STATS, the counters) alone. -/
def Obligations.PureCommandsWriteNothing : Prop :=
  ∀ (i : Instr) (s t : State), isPureCommand i = true → exec i s = .next t →
    t = { s with response := t.response } ∧
    ∀ s' t' : State, s'.cfg = s.cfg → (i = .stats → s'.stats = s.stats) →
      exec i s' = .next t' → t'.response = t.response

/-- 20_memory.md R62: a pure command between two FEEDs changes nothing of what later FEEDs and TICKs
do. -/
def Obligations.PureCommandsBetweenFeeds : Prop :=
  ∀ (i : Instr) (s t : State), isPureCommand i = true → exec i s = .next t →
    ∀ (first : U32 × Byte) (later : List (U32 × Byte)),
      runSeries t ((first :: later).map fun p => Instr.feed p.1 p.2) =
        runSeries s ((first :: later).map fun p => Instr.feed p.1 p.2)

/-! ## Whole-machine claims -/

/-- 10_state.md R24 (with R23, R26, R29 and 20_memory.md R63): every step keeps the legal states. -/
def Obligations.StepKeepsLegalState : Prop :=
  ∀ s t : State, s.Inv → step s = .next t → t.Inv

/-- 10_state.md R37, R33: the state after power-on is legal and its statistics balance, for every
well-formed configuration, the default of `State.reset` (log entry 1) among them. -/
def Obligations.PowerOnIsLegalAndBalanced : Prop :=
  Config.default.wf = true ∧ State.reset.Inv ∧ State.reset.Balanced ∧
  ∀ c : Config, c.wf = true → (State.powerOn c).Inv ∧ (State.powerOn c).Balanced

/-- 10_state.md R33: every step keeps the statistics in balance. The sum is modulo
`2^COUNTER_WIDTH`, so that it holds after a counter has wrapped too. -/
def Obligations.StepKeepsStatisticsBalanced : Prop :=
  ∀ s t : State, s.Balanced → step s = .next t → t.Balanced

/-- 43_parser.md R191: from `Idle`, the FEEDs of the bytes of a frame that ENCODE made, none later
than `TIMEOUT_MS` after the first, emit exactly one frame, on the last byte, and leave the parser in
`Idle` with `attempted` and `valid` each one higher. The hypothesis on `RESYNC_ON_START` is the
model's reading of R191 beside R186 (log entry 9). -/
def Obligations.FeedingAnEncodedFrameEmitsIt : Prop :=
  ∀ (s : State) (typ payload wire : List Byte) (times : List U32) (first last : U32),
    s.cfg.wf = true → s.parser = .idle →
    frameEncode s.cfg typ payload = .ok wire →
    (s.cfg.resyncOnStart = false ∨ s.cfg.startMarker ∉ typ) →
    times.length = wire.length → times.head? = some first → times.getLast? = some last →
    (∀ t ∈ times, first.toNat ≤ t.toNat ∧ t.toNat ≤ first.toNat + s.cfg.timeoutMs.toNat) →
    let answer := 0x01#8 :: frameBytes ⟨typ, payload,
      crc16 s.cfg (dec3 (4 + (escape s.cfg payload).length) ++ [0x3A#8] ++ typ ++ [0x3A#8] ++
        escape s.cfg payload), last⟩
    runSeries s (List.zipWith Instr.feed times wire) =
      some ({ s with
          stats := { s.stats with
            attempted := (s.stats.attempted + 1) % 2 ^ s.cfg.counterWidth,
            valid := (s.stats.valid + 1) % 2 ^ s.cfg.counterWidth },
          response := some answer },
        List.replicate (wire.length - 1) [0x00#8] ++ [answer])

/-- 90_conflicts.md C4 with 40_crc.md R105: one changed type byte in a frame that ENCODE made, fed
from `Idle` with every FEED at one timestamp, is one checksum mismatch and no frame, for every
polynomial with a non-zero constant term. -/
def Obligations.ChangedTypeByteIsMismatch : Prop :=
  ∀ (s : State) (typ payload wire : List Byte) (k : Nat) (b : Byte) (now : U32),
    s.cfg.wf = true → s.cfg.crcPoly.getLsbD 0 = true → s.parser = .idle →
    s.cfg.resyncOnStart = false →
    frameEncode s.cfg typ payload = .ok wire →
    5 ≤ k → k ≤ 7 → wire[k]? ≠ some b →
    runSeries s (feeds now (wire.set k b)) =
      some ({ s with
          stats := { s.stats with
            attempted := (s.stats.attempted + 1) % 2 ^ s.cfg.counterWidth,
            checksumErrors := (s.stats.checksumErrors + 1) % 2 ^ s.cfg.counterWidth },
          response := some [0x00#8] },
        List.replicate wire.length [0x00#8])
end

