-- ==== Sys2Proof/Laws/Bytes.lean ====
section
/-! SUPPORT. Big-endian fields and spans: what a field's bytes and value are, and what taking a
field or a span off a byte string can answer. -/

namespace Sys2Proof

@[simp] theorem beNat_nil : beNat [] = 0 := rfl

theorem beNat_cons (b : Byte) (bs : List Byte) :
    beNat (b :: bs) = b.toNat * 256 ^ bs.length + beNat bs := rfl

@[simp] theorem length_beBytes (w v : Nat) : (beBytes w v).length = w := by
  induction w with
  | zero => rfl
  | succ w ih => simp [beBytes, ih]

theorem beNat_lt (bs : List Byte) : beNat bs < 256 ^ bs.length := by
  induction bs with
  | nil => simp
  | cons b bs ih =>
    have hb : b.toNat < 256 := b.isLt
    have : (b.toNat + 1) * 256 ^ bs.length ≤ 256 * 256 ^ bs.length :=
      Nat.mul_le_mul_right _ hb
    rw [beNat_cons, List.length_cons, pow_succ]
    nlinarith

theorem beNat_beBytes_mod (w v : Nat) : beNat (beBytes w v) = v % 256 ^ w := by
  induction w with
  | zero => simp [beBytes, Nat.mod_one]
  | succ w ih =>
    have hm : v % (256 ^ w * 256) = v % 256 ^ w + 256 ^ w * (v / 256 ^ w % 256) := Nat.mod_mul
    have h8 : (BitVec.ofNat 8 (v / 256 ^ w)).toNat = v / 256 ^ w % 256 := BitVec.toNat_ofNat _ _
    rw [beBytes, beNat_cons, length_beBytes, ih, h8, pow_succ, hm, Nat.mul_comm, Nat.add_comm]

/-- A value that fits its field is read back. -/
theorem beNat_beBytes {w v : Nat} (h : v < 256 ^ w) : beNat (beBytes w v) = v := by
  rw [beNat_beBytes_mod, Nat.mod_eq_of_lt h]

theorem beBytes_mod (w v : Nat) : beBytes w (v % 256 ^ w) = beBytes w v := by
  suffices ∀ k, w ≤ k → beBytes w (v % 256 ^ k) = beBytes w v from this w le_rfl
  induction w with
  | zero => intros; rfl
  | succ w ih =>
    intro k hk
    rw [beBytes, beBytes, ih k (by omega)]
    congr 1
    apply BitVec.eq_of_toNat_eq
    have hs : 256 ^ k = 256 ^ w * (256 * 256 ^ (k - w - 1)) := by
      rw [← pow_succ', ← pow_add]; congr 1; omega
    rw [BitVec.toNat_ofNat, BitVec.toNat_ofNat, hs, Nat.mod_mul_right_div_self]
    exact Nat.mod_mod_of_dvd _ (Dvd.intro _ rfl)

/-- A field is determined by its value. -/
theorem beBytes_beNat (bs : List Byte) : beBytes bs.length (beNat bs) = bs := by
  induction bs with
  | nil => rfl
  | cons b bs ih =>
    have hlt := beNat_lt bs
    have hpos : 0 < 256 ^ bs.length := by positivity
    rw [List.length_cons, beBytes, beNat_cons]
    congr 1
    · rw [Nat.mul_comm, Nat.mul_add_div hpos, Nat.div_eq_of_lt hlt, Nat.add_zero]
      exact BitVec.ofNat_toNat 8 b ▸ by simp
    · rw [← beBytes_mod, Nat.mul_add_mod_self_right, beBytes_mod, ih]

theorem takeBytes_append (f rest : List Byte) :
    takeBytes f.length (f ++ rest) = some (f, rest) := by
  simp [takeBytes]

/-- Everything `takeBytes` can answer. -/
theorem takeBytes_eq_some {w : Nat} {bs f rest : List Byte} :
    takeBytes w bs = some (f, rest) ↔ f.length = w ∧ bs = f ++ rest := by
  constructor
  · intro h
    unfold takeBytes at h
    split at h
    · rename_i hw
      simp only [Option.some.injEq, Prod.mk.injEq] at h
      obtain ⟨rfl, rfl⟩ := h
      exact ⟨by simp [hw], (List.take_append_drop w bs).symm⟩
    · cases h
  · rintro ⟨rfl, rfl⟩
    exact takeBytes_append f rest

/-- Everything `takeSpan` can answer. -/
theorem takeSpan_eq_some {w : Nat} {bs data rest : List Byte} :
    takeSpan w bs = some (data, rest) ↔ data.length < 256 ^ w ∧ bs = spanBytes w data ++ rest := by
  constructor
  · intro h
    unfold takeSpan at h
    split at h
    · cases h
    · rename_i len more hlen
      obtain ⟨hw, rfl⟩ := takeBytes_eq_some.mp hlen
      obtain ⟨hd, rfl⟩ := takeBytes_eq_some.mp h
      refine ⟨by rw [hd, ← hw]; exact beNat_lt len, ?_⟩
      rw [spanBytes, hd, ← hw, beBytes_beNat, List.append_assoc]
  · rintro ⟨hd, rfl⟩
    have h1 : takeBytes w (beBytes w data.length ++ (data ++ rest)) =
        some (beBytes w data.length, data ++ rest) :=
      takeBytes_eq_some.mpr ⟨length_beBytes _ _, rfl⟩
    rw [takeSpan, spanBytes, List.append_assoc, h1]
    simp only [beNat_beBytes hd]
    exact takeBytes_append data rest

/-- Everything `takeU32` can answer. -/
theorem takeU32_eq_some {bs rest : List Byte} {v : U32} :
    takeU32 bs = some (v, rest) ↔ bs = beBytes 4 v.toNat ++ rest := by
  constructor
  · intro h
    unfold takeU32 at h
    split at h
    · cases h
    · rename_i f more hf
      obtain ⟨hw, rfl⟩ := takeBytes_eq_some.mp hf
      simp only [Option.some.injEq, Prod.mk.injEq] at h
      obtain ⟨rfl, rfl⟩ := h
      have hlt := beNat_lt f
      rw [hw] at hlt
      rw [BitVec.toNat_ofNat, Nat.mod_eq_of_lt (by simpa using hlt), ← hw, beBytes_beNat]
  · rintro rfl
    have h1 : takeBytes 4 (beBytes 4 v.toNat ++ rest) = some (beBytes 4 v.toNat, rest) :=
      takeBytes_eq_some.mpr ⟨length_beBytes _ _, rfl⟩
    have hv : v.toNat < 256 ^ 4 := v.isLt
    rw [takeU32, h1]
    simp only [beNat_beBytes hv]
    simp

/-- `atEnd` accepts only an empty rest. -/
theorem atEnd_eq_some {i j : Instr} {rest : List Byte} :
    atEnd i rest = some j ↔ rest = [] ∧ i = j := by
  cases rest <;> simp [atEnd]

end Sys2Proof
end

