-- ==== Sys2Proof/Laws/Crc.lean ====
section
/-! SUPPORT. The CRC register: reflection and each stage lose nothing when the polynomial has a
non-zero constant term. -/

namespace Sys2Proof.Machine

theorem reverse_injective {w : Nat} {a b : BitVec w} (h : a.reverse = b.reverse) : a = b := by
  ext i hi
  have := congrArg (fun v => v.getMsbD i) h
  simpa [BitVec.getMsbD_reverse, BitVec.getLsbD_eq_getElem, hi] using this

/-- One shift can be undone: its bit 0 says which bit 15 was discarded. -/
theorem crcShift_injective {c : Config} (hp : c.crcPoly.getLsbD 0 = true) {r r' : U16}
    (h : crcShift c r = crcShift c r') : r = r' := by
  have bit0 : ∀ r : U16, (crcShift c r).getLsbD 0 = r.getLsbD 15 := by
    intro r; unfold crcShift; split <;> simp_all
  have h15 : r.getLsbD 15 = r'.getLsbD 15 := by rw [← bit0, ← bit0, h]
  have hs : r <<< 1 = r' <<< 1 := by
    unfold crcShift at h
    rw [h15] at h
    split at h
    · exact (BitVec.xor_left_inj _).mp h
    · exact h
  ext i hi
  by_cases hi15 : i = 15
  · subst hi15
    simpa using h15
  · have := congrArg (fun v => v.getLsbD (i + 1)) hs
    have hlt : i + 1 < 16 := by omega
    simpa [hlt, BitVec.getLsbD_eq_getElem, hi] using this

theorem crcShift8_injective {c : Config} (hp : c.crcPoly.getLsbD 0 = true) {r r' : U16}
    (h : crcShift8 c r = crcShift8 c r') : r = r' := by
  have : ∀ n, Nat.repeat (crcShift c) n r = Nat.repeat (crcShift c) n r' → r = r' := by
    intro n
    induction n with
    | zero => exact id
    | succ n ih => intro h; exact ih (crcShift_injective hp h)
  exact this 8 h

/-- The register before a byte is determined by the register after it. -/
theorem crcByte_injective_register {c : Config} (hp : c.crcPoly.getLsbD 0 = true) {r r' : U16}
    {b : Byte} (h : crcByte c r b = crcByte c r' b) : r = r' :=
  (BitVec.xor_left_inj _).mp (crcShift8_injective hp h)

@[simp] theorem crcRegister_nil (c : Config) (r : U16) : crcRegister c r [] = r := rfl

@[simp] theorem crcRegister_cons (c : Config) (r : U16) (b : Byte) (data : List Byte) :
    crcRegister c r (b :: data) = crcRegister c (crcByte c r b) data := rfl

theorem crcRegister_append (c : Config) (r : U16) (a b : List Byte) :
    crcRegister c r (a ++ b) = crcRegister c (crcRegister c r a) b := List.foldl_append

end Sys2Proof.Machine
end

