-- ==== Sys2Proof/Laws/Escape.lean ====
section
/-! SUPPORT. The steps of `escape` and `unescape`. -/

namespace Sys2Proof.Machine

@[simp] theorem escape_nil (c : Config) : escape c [] = [] := rfl

theorem escape_cons (c : Config) (b : Byte) (p : List Byte) :
    escape c (b :: p) = escapeByte c b ++ escape c p := rfl

@[simp] theorem unescape_nil (c : Config) : unescape c [] = some [] := rfl

theorem unescape_escMarker (c : Config) (x : Byte) (rest : List Byte) :
    unescape c (c.escMarker :: x :: rest) =
      (unescape c rest).map fun out => (x ^^^ escXor) :: out := by
  rw [unescape]; simp

theorem unescape_plain {c : Config} {b : Byte} (h : b ≠ c.escMarker) (rest : List Byte) :
    unescape c (b :: rest) = (unescape c rest).map fun out => b :: out := by
  cases rest with
  | nil => simp [unescape, h]
  | cons x rest => rw [unescape]; simp [h]

@[simp] theorem escFlag_nil (c : Config) : escFlag c [] = false := rfl

theorem escFlag_append_singleton (c : Config) (raw : List Byte) (b : Byte) :
    escFlag c (raw ++ [b]) = escFlagNext c (escFlag c raw) b := by
  simp [escFlag]

theorem escFlag_escMarker (c : Config) (x : Byte) (rest : List Byte) :
    escFlag c (c.escMarker :: x :: rest) = escFlag c rest := by
  simp [escFlag, escFlagNext]

theorem escFlag_plain {c : Config} {b : Byte} (h : b ≠ c.escMarker) (rest : List Byte) :
    escFlag c (b :: rest) = escFlag c rest := by
  have : (b == c.escMarker) = false := by simpa using h
  simp [escFlag, escFlagNext, this]

/-- Unescaping never makes a span longer. -/
theorem length_unescape_le {c : Config} {d out : List Byte} (h : unescape c d = some out) :
    out.length ≤ d.length := by
  induction d using unescape.induct c generalizing out with
  | case1 => simp at h; simp [← h]
  | case2 => simp [unescape] at h
  | case3 b hb => simp [unescape, hb] at h; simp [← h]
  | case4 x rest ih =>
    rw [unescape_escMarker] at h
    obtain ⟨o, ho, rfl⟩ := Option.map_eq_some_iff.mp h
    have := ih ho
    simp; omega
  | case5 b x rest hb ih =>
    rw [unescape_plain hb] at h
    obtain ⟨o, ho, rfl⟩ := Option.map_eq_some_iff.mp h
    simpa using ih ho

end Sys2Proof.Machine
end

