-- ==== Sys2Proof/Laws/State.lean ====
section
/-! SUPPORT. One lemma per field per update of the state, true by rfl. -/

namespace Sys2Proof.Machine

/-! ### respond -/

@[simp] theorem respond_cfg (st : Status) (fields : List Byte) (s : State) :
    (respond st fields s).cfg = s.cfg := rfl

@[simp] theorem respond_parser (st : Status) (fields : List Byte) (s : State) :
    (respond st fields s).parser = s.parser := rfl

@[simp] theorem respond_stats (st : Status) (fields : List Byte) (s : State) :
    (respond st fields s).stats = s.stats := rfl

@[simp] theorem respond_pending (st : Status) (fields : List Byte) (s : State) :
    (respond st fields s).pending = s.pending := rfl

@[simp] theorem respond_response (st : Status) (fields : List Byte) (s : State) :
    (respond st fields s).response = some (st.code :: fields) := rfl

/-! ### raiseError -/

@[simp] theorem raiseError_cfg (st : Status) (s : State) :
    (raiseError st s).cfg = s.cfg := rfl

@[simp] theorem raiseError_parser (st : Status) (s : State) :
    (raiseError st s).parser = s.parser := rfl

@[simp] theorem raiseError_stats (st : Status) (s : State) :
    (raiseError st s).stats = s.stats := rfl

@[simp] theorem raiseError_pending (st : Status) (s : State) :
    (raiseError st s).pending = s.pending := rfl

@[simp] theorem raiseError_response (st : Status) (s : State) :
    (raiseError st s).response = some [st.code] := rfl

/-! ### setParser -/

@[simp] theorem setParser_cfg (q : ParserState) (s : State) :
    (setParser q s).cfg = s.cfg := rfl

@[simp] theorem setParser_parser (q : ParserState) (s : State) :
    (setParser q s).parser = q := rfl

@[simp] theorem setParser_stats (q : ParserState) (s : State) :
    (setParser q s).stats = s.stats := rfl

@[simp] theorem setParser_pending (q : ParserState) (s : State) :
    (setParser q s).pending = s.pending := rfl

@[simp] theorem setParser_response (q : ParserState) (s : State) :
    (setParser q s).response = s.response := rfl

/-! ### goIdle -/

@[simp] theorem goIdle_cfg (s : State) :
    (goIdle s).cfg = s.cfg := rfl

@[simp] theorem goIdle_parser (s : State) :
    (goIdle s).parser = .idle := rfl

@[simp] theorem goIdle_stats (s : State) :
    (goIdle s).stats = s.stats := rfl

@[simp] theorem goIdle_pending (s : State) :
    (goIdle s).pending = s.pending := rfl

@[simp] theorem goIdle_response (s : State) :
    (goIdle s).response = s.response := rfl

/-! ### resetBlock -/

@[simp] theorem resetBlock_cfg (s : State) :
    (resetBlock s).cfg = s.cfg := rfl

@[simp] theorem resetBlock_parser (s : State) :
    (resetBlock s).parser = .idle := rfl

@[simp] theorem resetBlock_stats (s : State) :
    (resetBlock s).stats = Stats.zero := rfl

@[simp] theorem resetBlock_pending (s : State) :
    (resetBlock s).pending = s.pending := rfl

@[simp] theorem resetBlock_response (s : State) :
    (resetBlock s).response = s.response := rfl

/-! ### presentCommand -/

@[simp] theorem presentCommand_cfg (bytes : List Byte) (s : State) :
    (presentCommand bytes s).cfg = s.cfg := rfl

@[simp] theorem presentCommand_parser (bytes : List Byte) (s : State) :
    (presentCommand bytes s).parser = s.parser := rfl

@[simp] theorem presentCommand_stats (bytes : List Byte) (s : State) :
    (presentCommand bytes s).stats = s.stats := rfl

@[simp] theorem presentCommand_pending (bytes : List Byte) (s : State) :
    (presentCommand bytes s).pending = bytes :: s.pending := rfl

@[simp] theorem presentCommand_response (bytes : List Byte) (s : State) :
    (presentCommand bytes s).response = s.response := rfl

/-! ### countAttempted -/

@[simp] theorem countAttempted_cfg (s : State) :
    (countAttempted s).cfg = s.cfg := rfl

@[simp] theorem countAttempted_parser (s : State) :
    (countAttempted s).parser = s.parser := rfl

@[simp] theorem countAttempted_stats (s : State) :
    (countAttempted s).stats = { s.stats with attempted := bump s.cfg s.stats.attempted } := rfl

@[simp] theorem countAttempted_pending (s : State) :
    (countAttempted s).pending = s.pending := rfl

@[simp] theorem countAttempted_response (s : State) :
    (countAttempted s).response = s.response := rfl

/-! ### countValid -/

@[simp] theorem countValid_cfg (s : State) :
    (countValid s).cfg = s.cfg := rfl

@[simp] theorem countValid_parser (s : State) :
    (countValid s).parser = s.parser := rfl

@[simp] theorem countValid_stats (s : State) :
    (countValid s).stats = { s.stats with valid := bump s.cfg s.stats.valid } := rfl

@[simp] theorem countValid_pending (s : State) :
    (countValid s).pending = s.pending := rfl

@[simp] theorem countValid_response (s : State) :
    (countValid s).response = s.response := rfl

/-! ### countChecksumError -/

@[simp] theorem countChecksumError_cfg (s : State) :
    (countChecksumError s).cfg = s.cfg := rfl

@[simp] theorem countChecksumError_parser (s : State) :
    (countChecksumError s).parser = s.parser := rfl

@[simp] theorem countChecksumError_stats (s : State) :
    (countChecksumError s).stats = { s.stats with checksumErrors := bump s.cfg s.stats.checksumErrors } := rfl

@[simp] theorem countChecksumError_pending (s : State) :
    (countChecksumError s).pending = s.pending := rfl

@[simp] theorem countChecksumError_response (s : State) :
    (countChecksumError s).response = s.response := rfl

/-! ### countMalformed -/

@[simp] theorem countMalformed_cfg (s : State) :
    (countMalformed s).cfg = s.cfg := rfl

@[simp] theorem countMalformed_parser (s : State) :
    (countMalformed s).parser = s.parser := rfl

@[simp] theorem countMalformed_stats (s : State) :
    (countMalformed s).stats = { s.stats with malformed := bump s.cfg s.stats.malformed } := rfl

@[simp] theorem countMalformed_pending (s : State) :
    (countMalformed s).pending = s.pending := rfl

@[simp] theorem countMalformed_response (s : State) :
    (countMalformed s).response = s.response := rfl

/-! ### countTimeout -/

@[simp] theorem countTimeout_cfg (s : State) :
    (countTimeout s).cfg = s.cfg := rfl

@[simp] theorem countTimeout_parser (s : State) :
    (countTimeout s).parser = s.parser := rfl

@[simp] theorem countTimeout_stats (s : State) :
    (countTimeout s).stats = { s.stats with timeouts := bump s.cfg s.stats.timeouts } := rfl

@[simp] theorem countTimeout_pending (s : State) :
    (countTimeout s).pending = s.pending := rfl

@[simp] theorem countTimeout_response (s : State) :
    (countTimeout s).response = s.response := rfl

/-! ### powerOn -/

@[simp] theorem powerOn_cfg (c : Config) :
    (State.powerOn c).cfg = c := rfl

@[simp] theorem powerOn_parser (c : Config) :
    (State.powerOn c).parser = .idle := rfl

@[simp] theorem powerOn_stats (c : Config) :
    (State.powerOn c).stats = Stats.zero := rfl

@[simp] theorem powerOn_pending (c : Config) :
    (State.powerOn c).pending = [] := rfl

@[simp] theorem powerOn_response (c : Config) :
    (State.powerOn c).response = none := rfl

end Sys2Proof.Machine
end

