-- ==== Sys2Proof/Laws/Ops.lean ====
section
/-! SUPPORT. What the shared operations of Machine/Ops.lean and Machine/Operands.lean can do, and the
configuration's items read one by one. -/

namespace Sys2Proof.Machine

/-! ## Configuration -/

/-- What a well-formed configuration gives the markers: they differ, and no marker's image under
`ESC_XOR` is a marker. -/
theorem Config.wf_markers {c : Config} (h : c.wf = true) :
    c.startMarker ≠ c.endMarker ∧ c.startMarker ≠ c.escMarker ∧ c.endMarker ≠ c.escMarker ∧
      ∀ b, c.isReserved b = true → c.isReserved (b ^^^ escXor) = false := by
  simp [Config.wf, Config.markersDistinct, Config.imagesClear] at h
  refine ⟨h.1.1.1.1.1.1.1, h.1.1.1.1.1.1.2, h.1.1.1.1.1.2, fun b hb => ?_⟩
  simp [Config.isReserved] at hb
  rcases hb with (rfl | rfl) | rfl <;> simp_all

/-- What a well-formed configuration gives the sizes. -/
theorem Config.wf_sizes {c : Config} (h : c.wf = true) :
    14 ≤ c.maxFrameSize ∧ c.maxFrameSize ≤ 1009 ∧ c.payloadBudget + 10 = c.maxFrameSize ∧
      c.timeoutMs.toNat < 2 ^ c.timeWidth ∧ c.counterWidth ≤ 32 := by
  simp [Config.wf] at h
  obtain ⟨⟨⟨-, hsize⟩, htime⟩, hcount⟩ := h
  refine ⟨hsize.1, hsize.2, ?_, htime, hcount⟩
  unfold Config.payloadBudget frameOverhead
  omega

/-- No header byte is a marker of a well-formed configuration. -/
theorem Config.wf_header {c : Config} (h : c.wf = true) {b : Byte} (hb : isHeaderByte b = true) :
    c.isReserved b = false := by
  simp [Config.wf, Config.markersClearOfHeader] at h
  by_contra hr
  have hr : b = c.startMarker ∨ b = c.endMarker ∨ b = c.escMarker := by
    simp [Config.isReserved] at hr; tauto
  rcases hr with rfl | rfl | rfl <;> simp_all

@[simp] theorem isReserved_startMarker (c : Config) : c.isReserved c.startMarker = true := by
  simp [Config.isReserved]

@[simp] theorem isReserved_endMarker (c : Config) : c.isReserved c.endMarker = true := by
  simp [Config.isReserved]

@[simp] theorem isReserved_escMarker (c : Config) : c.isReserved c.escMarker = true := by
  simp [Config.isReserved]

theorem isReserved_eq_false_iff {c : Config} {b : Byte} :
    c.isReserved b = false ↔ b ≠ c.startMarker ∧ b ≠ c.endMarker ∧ b ≠ c.escMarker := by
  simp [Config.isReserved, and_assoc]

/-! ## Numerals -/

theorem isDigit_iff {b : Byte} : isDigit b = true ↔ 0x30 ≤ b.toNat ∧ b.toNat ≤ 0x39 := by
  simp [isDigit]

/-- The ASCII digit of a number below 10 is a digit with that value. -/
theorem digitByte_spec {n : Nat} (h : n < 10) :
    isDigit (digitByte n) = true ∧ digitVal (digitByte n) = n := by
  interval_cases n <;> decide

/-- A digit is the ASCII digit of its value. -/
theorem digitByte_digitVal {b : Byte} (h : isDigit b = true) :
    digitVal b < 10 ∧ digitByte (digitVal b) = b := by
  rw [isDigit_iff] at h
  refine ⟨by unfold digitVal; omega, ?_⟩
  apply BitVec.eq_of_toNat_eq
  simp [digitByte, digitVal]
  omega

/-- A hexadecimal digit's byte is `'0'..'9'` or `'A'..'F'`. -/
theorem hexByte_range {x : Nat} (h : x < 16) :
    (0x30 ≤ (hexByte x).toNat ∧ (hexByte x).toNat ≤ 0x39) ∨
      (0x41 ≤ (hexByte x).toNat ∧ (hexByte x).toNat ≤ 0x46) := by
  interval_cases x <;> decide

theorem hexByte_injective {x y : Nat} (hx : x < 16) (hy : y < 16) (h : hexByte x = hexByte y) :
    x = y := by
  have : ∀ x < 16, ∀ y < 16, hexByte x = hexByte y → x = y := by decide
  exact this x hx y hy h

@[simp] theorem length_dec3 (n : Nat) : (dec3 n).length = 3 := rfl

@[simp] theorem length_hex4 (v : U16) : (hex4 v).length = 4 := rfl

theorem length_frameBytes (f : FrameRecord) :
    (frameBytes f).length = f.typ.length + f.payload.length + 8 := by
  simp [frameBytes, spanBytes]; omega

/-! ## Counters and the attempt timer -/

theorem bump_lt (c : Config) (n : Nat) : bump c n < 2 ^ c.counterWidth :=
  Nat.mod_lt _ (by positivity)

theorem timeoutCheck_of_idle {s : State} (now : U32) (h : s.parser = .idle) :
    timeoutCheck now s = s := by
  simp [timeoutCheck, timedOut, h, ParserState.start?]

theorem timeoutCheck_of_in_time {s : State} {now start : U32} (h : s.parser.start? = some start)
    (ht : elapsed s.cfg start now ≤ s.cfg.timeoutMs.toNat) : timeoutCheck now s = s := by
  have : ¬ s.cfg.timeoutMs.toNat < elapsed s.cfg start now := by omega
  simp [timeoutCheck, timedOut, h, this]

theorem timeoutCheck_of_late {s : State} {now start : U32} (h : s.parser.start? = some start)
    (ht : s.cfg.timeoutMs.toNat < elapsed s.cfg start now) :
    timeoutCheck now s = goIdle (countTimeout s) := by
  simp [timeoutCheck, timedOut, h, ht]

/-- Everything the timeout check can do: leave the state, with any attempt still in time, or abandon
an attempt. -/
theorem timeoutCheck_cases (now : U32) (s : State) :
    (timeoutCheck now s = s ∧ ∀ start, s.parser.start? = some start →
      elapsed s.cfg start now ≤ s.cfg.timeoutMs.toNat) ∨
    (timeoutCheck now s = goIdle (countTimeout s) ∧ ∃ start, s.parser.start? = some start ∧
      s.cfg.timeoutMs.toNat < elapsed s.cfg start now) := by
  cases hq : s.parser.start? with
  | none => exact .inl ⟨by simp [timeoutCheck, timedOut, hq], by simp⟩
  | some start =>
    by_cases h : s.cfg.timeoutMs.toNat < elapsed s.cfg start now
    · exact .inr ⟨timeoutCheck_of_late hq h, start, rfl, h⟩
    · refine .inl ⟨timeoutCheck_of_in_time hq (by omega), ?_⟩
      rintro _ ⟨⟩
      omega

@[simp] theorem timeoutCheck_cfg (now : U32) (s : State) : (timeoutCheck now s).cfg = s.cfg := by
  unfold timeoutCheck; split <;> rfl

@[simp] theorem timeoutCheck_pending (now : U32) (s : State) :
    (timeoutCheck now s).pending = s.pending := by
  unfold timeoutCheck; split <;> rfl

/-! ## Taking the next command -/

/-- Everything `takeCommand` can answer. -/
theorem takeCommand_eq_some {s t : State} {bytes : List Byte} :
    takeCommand s = some (bytes, t) ↔
      ∃ rest, s.pending = bytes :: rest ∧ t = { s with pending := rest } := by
  unfold takeCommand
  cases hp : s.pending with
  | nil => simp
  | cons first rest =>
    simp only [Option.some.injEq, Prod.mk.injEq, List.cons.injEq]
    constructor
    · rintro ⟨rfl, rfl⟩
      exact ⟨rest, ⟨rfl, rfl⟩, rfl⟩
    · rintro ⟨_, ⟨rfl, rfl⟩, rfl⟩
      exact ⟨rfl, rfl⟩

theorem takeCommand_eq_none {s : State} : takeCommand s = none ↔ s.pending = [] := by
  unfold takeCommand
  cases s.pending <;> simp

end Sys2Proof.Machine
end

