-- ==== Sys2Proof/Laws/Parser.lean ====
section
/-! SUPPORT. Everything an arm of the per-byte step, the per-byte step, a FEED's counting and
answering, the encoder of frames and a step of the block can do. -/

namespace Sys2Proof.Machine

/-! ## The per-byte step -/

/-- Everything one arm can do: keep the attempt (or its absence) quietly, begin one, fail it, find a
mismatch, or complete a frame. -/
theorem byteArm_cases (c : Config) (q : ParserState) (b : Byte) (now : U32) :
    (∃ q', byteArm c q b now = (q', none) ∧ q'.start? = q.start? ∧ (q' = .idle ↔ q = .idle)) ∨
    (q = .idle ∧ b = c.startMarker ∧
      byteArm c q b now = (.readingLength now [], some .begin)) ∨
    (q ≠ .idle ∧ byteArm c q b now = (.idle, some .malformed)) ∨
    ∃ start lenDigits typ raw payload cs,
      q = .readingChecksum start lenDigits typ raw payload cs ∧
      ((cs ++ [b] = hex4 (crc16 c (checkedSpan lenDigits typ raw)) ∧
        byteArm c q b now = (.idle, some (.frame
          ⟨typ, payload, crc16 c (checkedSpan lenDigits typ raw), now⟩))) ∨
      (cs ++ [b] ≠ hex4 (crc16 c (checkedSpan lenDigits typ raw)) ∧
        byteArm c q b now = (.idle, some .mismatch))) := by
  cases q with
  | idle =>
    by_cases h : b = c.startMarker
    · exact .inr (.inl ⟨rfl, h, by simp [byteArm, idleArm, h]⟩)
    · exact .inl ⟨.idle, by simp [byteArm, idleArm, h], rfl, by simp⟩
  | readingLength start lenDigits =>
    simp only [byteArm, lengthArm, failMalformed]
    split_ifs
    all_goals first
      | exact .inl ⟨_, rfl, rfl, by simp⟩
      | exact .inr (.inr (.inl ⟨by simp, rfl⟩))
  | readingType start lenDigits typ =>
    simp only [byteArm, typeArm, failMalformed]
    split_ifs
    all_goals first
      | exact .inl ⟨_, rfl, rfl, by simp⟩
      | exact .inr (.inr (.inl ⟨by simp, rfl⟩))
  | readingPayload start lenDigits typ raw esc =>
    simp only [byteArm, payloadArm, appendRaw, endPayload, failMalformed]
    split_ifs
    all_goals try split
    all_goals first
      | exact .inl ⟨_, rfl, rfl, by simp⟩
      | exact .inr (.inr (.inl ⟨by simp, rfl⟩))
  | readingChecksum start lenDigits typ raw payload cs =>
    simp only [byteArm, checksumArm]
    split_ifs with hlen heq
    · exact .inl ⟨_, rfl, rfl, by simp⟩
    · exact .inr (.inr (.inr ⟨_, _, _, _, _, _, rfl, .inl ⟨heq, rfl⟩⟩))
    · exact .inr (.inr (.inr ⟨_, _, _, _, _, _, rfl, .inr ⟨heq, rfl⟩⟩))

theorem byteStep_of_not_resyncs {c : Config} {q : ParserState} {b : Byte}
    (h : resyncs c q b = false) (now : U32) :
    byteStep c q b now = ((byteArm c q b now).1, (byteArm c q b now).2.toList) := by
  simp [byteStep, h]

theorem byteStep_of_resyncs {c : Config} {q : ParserState} {b : Byte}
    (h : resyncs c q b = true) (now : U32) :
    byteStep c q b now = (.readingLength now [], [.malformed, .begin]) := by
  have hb : b = c.startMarker := by simp [resyncs] at h; exact h.1.2
  unfold byteStep
  rw [if_pos h]
  simp [byteArm, idleArm, hb]

theorem resyncs_eq_false_of {c : Config} {b : Byte} (q : ParserState)
    (h : c.resyncOnStart = false ∨ b ≠ c.startMarker) : resyncs c q b = false := by
  unfold resyncs
  rcases h with h | h <;> simp [h]

/-! ## Counting and answering -/

@[simp] theorem countEvent_cfg (s : State) (e : Event) : (countEvent s e).cfg = s.cfg := by
  cases e <;> rfl

@[simp] theorem countEvent_parser (s : State) (e : Event) :
    (countEvent s e).parser = s.parser := by
  cases e <;> rfl

@[simp] theorem countEvent_pending (s : State) (e : Event) :
    (countEvent s e).pending = s.pending := by
  cases e <;> rfl

@[simp] theorem countEvents_cfg (events : List Event) (s : State) :
    (events.foldl countEvent s).cfg = s.cfg := by
  induction events generalizing s <;> simp_all

@[simp] theorem countEvents_parser (events : List Event) (s : State) :
    (events.foldl countEvent s).parser = s.parser := by
  induction events generalizing s <;> simp_all

@[simp] theorem countEvents_pending (events : List Event) (s : State) :
    (events.foldl countEvent s).pending = s.pending := by
  induction events generalizing s <;> simp_all

/-- Everything `respondEvents` can do: answer the one frame, or OK. -/
theorem respondEvents_cases (events : List Event) (s : State) :
    (emitted events = none ∧ respondEvents events s = respond .ok [] s) ∨
    ∃ f, emitted events = some f ∧ respondEvents events s = respond .frame (frameBytes f) s := by
  unfold respondEvents
  cases h : emitted events with
  | none => exact .inl ⟨rfl, rfl⟩
  | some f => exact .inr ⟨f, rfl, rfl⟩

@[simp] theorem respondEvents_cfg (events : List Event) (s : State) :
    (respondEvents events s).cfg = s.cfg := by
  unfold respondEvents; split <;> rfl

@[simp] theorem respondEvents_parser (events : List Event) (s : State) :
    (respondEvents events s).parser = s.parser := by
  unfold respondEvents; split <;> rfl

@[simp] theorem respondEvents_stats (events : List Event) (s : State) :
    (respondEvents events s).stats = s.stats := by
  unfold respondEvents; split <;> rfl

@[simp] theorem respondEvents_pending (events : List Event) (s : State) :
    (respondEvents events s).pending = s.pending := by
  unfold respondEvents; split <;> rfl

@[simp] theorem feedByte_cfg (now : U32) (b : Byte) (s : State) :
    (feedByte now b s).cfg = s.cfg := by
  simp [feedByte]

@[simp] theorem feedByte_pending (now : U32) (b : Byte) (s : State) :
    (feedByte now b s).pending = s.pending := by
  simp [feedByte]

@[simp] theorem feedByte_parser (now : U32) (b : Byte) (s : State) :
    (feedByte now b s).parser = (byteStep s.cfg s.parser b now).1 := by
  simp [feedByte]

/-! ## The frame encoder -/

/-- Everything an encode that succeeds can answer (42_frame_codec.md R140, R141). -/
theorem frameEncode_eq_ok {c : Config} {typ payload wire : List Byte}
    (h : frameEncode c typ payload = .ok wire) :
    typ.length = 3 ∧ 4 + (escape c payload).length ≤ c.payloadBudget ∧
      wire = c.startMarker :: (dec3 (4 + (escape c payload).length) ++ colon :: typ ++
        colon :: escape c payload ++ c.endMarker :: hex4 (crc16 c
          (checkedSpan (dec3 (4 + (escape c payload).length)) typ (escape c payload)))) := by
  unfold frameEncode at h
  split at h
  · cases h
  · rename_i ht
    simp only [] at h
    split at h
    · cases h
    · rename_i hb
      cases h
      have hlen : (contentOf typ (escape c payload)).length = 4 + (escape c payload).length := by
        simp [contentOf]; omega
      refine ⟨by simpa using ht, by omega, ?_⟩
      simp only [wireFrame, hlen, checkedSpan]
      simp [contentOf]

/-! ## One step of the block -/

/-- Everything a step that answers a next state can do: hold the state, answer a command-port error,
or run the command it decoded. -/
theorem step_cases {s t : State} (h : step s = .next t) :
    s.cfg.wf = true ∧
    ((s.pending = [] ∧ t = s) ∨ ∃ bytes rest, s.pending = bytes :: rest ∧
      ((∃ e, decodeCommand bytes = .error e ∧
        t = raiseError (commandErrorStatus e) { s with pending := rest }) ∨
      ∃ i, decodeCommand bytes = .ok i ∧ exec i { s with pending := rest } = .next t)) := by
  unfold step at h
  split at h
  · rename_i hwf
    refine ⟨hwf, ?_⟩
    cases hp : s.pending with
    | nil =>
      simp only [takeCommand_eq_none.mpr hp] at h
      cases h
      exact .inl ⟨rfl, rfl⟩
    | cons bytes rest =>
      refine .inr ⟨bytes, rest, rfl, ?_⟩
      simp only [takeCommand_eq_some.mpr ⟨rest, hp, rfl⟩] at h
      split at h
      · rename_i e he
        cases h
        exact .inl ⟨e, he, rfl⟩
      · rename_i i hi
        exact .inr ⟨i, hi, h⟩
  · cases h

end Sys2Proof.Machine
end

