-- ==== Sys2Proof/Laws/PerInstr.lean ====
section
/-! SUPPORT. Facts about each command as syntax, one lemma per constructor. -/

namespace Sys2Proof.Laws.EncodedLength

/-- The bytes of a well-formed command have the length that its opcode and length prefixes state
(30_encoding.md R85). -/
def Statement (i : Instr) : Prop :=
  i.WellFormed = true → commandLength (encodeCommand i) = some (encodeCommand i).length

theorem byteAt_cons (b : Byte) (bs : List Byte) (k : Nat) :
    byteAt (b :: bs) (k + 1) = byteAt bs k := by
  simp [byteAt]

theorem byteAt_append_length (a bs : List Byte) (k : Nat) :
    byteAt (a ++ bs) (a.length + k) = byteAt bs k := by
  simp [byteAt, List.getD_eq_getElem?_getD, List.getElem?_append_right]

/-- The two prefix bytes of a span16 hold its length. -/
theorem span16_prefix {data : List Byte} (h : spanFits data = true) :
    beNat [byteAt (spanBytes 2 data) 0, byteAt (spanBytes 2 data) 1] = data.length := by
  have := beNat_beBytes (w := 2) (v := data.length) (by simp [spanFits] at h; omega)
  simpa [spanBytes, beBytes, byteAt, beNat] using this

theorem crc16 (data : List Byte) : Statement (.crc16 data) := by
  intro h
  have h : spanFits data = true := h
  simp [encodeCommand, Instr.opcode, operandBytes, commandLength, byteAt_cons, span16_prefix h]
  simp [byteAt, Opcode.byte, Opcode.ofByte, spanBytes]
  omega

theorem escape (data : List Byte) : Statement (.escape data) := by
  intro h
  have h : spanFits data = true := h
  simp [encodeCommand, Instr.opcode, operandBytes, commandLength, byteAt_cons, span16_prefix h]
  simp [byteAt, Opcode.byte, Opcode.ofByte, spanBytes]
  omega

theorem unescape (data : List Byte) : Statement (.unescape data) := by
  intro h
  have h : spanFits data = true := h
  simp [encodeCommand, Instr.opcode, operandBytes, commandLength, byteAt_cons, span16_prefix h]
  simp [byteAt, Opcode.byte, Opcode.ofByte, spanBytes]
  omega

theorem encode (typ payload : List Byte) : Statement (.encode typ payload) := by
  intro h
  obtain ⟨ht, hp⟩ : typeFits typ = true ∧ spanFits payload = true := by
    simpa [Instr.WellFormed] using h
  have htyp : (byteAt (spanBytes 1 typ ++ spanBytes 2 payload) 0).toNat = typ.length := by
    simp [typeFits] at ht
    simp [spanBytes, beBytes, byteAt]
    omega
  have hlen : (spanBytes 1 typ).length = 1 + typ.length := by simp [spanBytes]
  have h0 := byteAt_append_length (spanBytes 1 typ) (spanBytes 2 payload) 0
  have h1 := byteAt_append_length (spanBytes 1 typ) (spanBytes 2 payload) 1
  rw [hlen, Nat.add_zero] at h0
  rw [hlen] at h1
  unfold commandLength encodeCommand
  have hop : Opcode.ofByte (byteAt ((Instr.encode typ payload).opcode.byte ::
      operandBytes (.encode typ payload)) 0) = some .encode := rfl
  rw [hop]
  simp only [operandBytes, byteAt_cons, htyp]
  rw [show 2 + typ.length = (1 + typ.length) + 1 by omega,
    show 3 + typ.length = (1 + typ.length + 1) + 1 by omega, byteAt_cons, byteAt_cons, h0, h1,
    span16_prefix hp]
  simp [spanBytes]
  omega

theorem decode (now : U32) (buffer : List Byte) : Statement (.decode now buffer) := by
  intro h
  have h : spanFits buffer = true := h
  have h0 := byteAt_append_length (beBytes 4 now.toNat) (spanBytes 2 buffer) 0
  have h1 := byteAt_append_length (beBytes 4 now.toNat) (spanBytes 2 buffer) 1
  rw [length_beBytes, Nat.add_zero] at h0
  rw [length_beBytes] at h1
  unfold commandLength encodeCommand
  have hop : Opcode.ofByte (byteAt ((Instr.decode now buffer).opcode.byte ::
      operandBytes (.decode now buffer)) 0) = some .decode := rfl
  rw [hop]
  simp only [operandBytes, byteAt_cons]
  rw [h0, show (5 : Nat) = 4 + 1 by rfl, h1, span16_prefix h]
  simp [spanBytes]
  omega

theorem feed (now : U32) (byte : Byte) : Statement (.feed now byte) := fun _ => rfl

theorem tick (now : U32) : Statement (.tick now) := fun _ => rfl

theorem stats : Statement .stats := fun _ => rfl

theorem reset : Statement .reset := fun _ => rfl

end Sys2Proof.Laws.EncodedLength
end

