-- ==== Sys2Proof/Tests/Slice0.lean ====
section
/-! SUPPORT. Named tests. Expected results are the vectors of spec/95_test_vectors.md or worked by
hand from the rule cited. A theorem `witness_<Name>` shows a state and operands that meet the
hypotheses of the obligation `<Name>`, for each of its clauses. -/

namespace Sys2Proof.Tests

open Sys2Proof.Machine

-- One theorem at a time: the kernel's evaluations side by side reserve too much memory.
set_option Elab.async false

/-! ## States and bytes used below -/

/-- The state right after reset, with the parser state `q`. -/
def parsing (q : ParserState) : State := { State.reset with parser := q }

/-- The state right after reset, with one command presented. -/
def presenting (bytes : List Byte) : State := { State.reset with pending := [bytes] }

/-- The default configuration with `RESYNC_ON_START = true`. -/
def resyncConfig : Config := { Config.default with resyncOnStart := true }

/-- `"009"` -/
def l009 : List Byte := [0x30, 0x30, 0x39]

/-- `"ABC"` -/
def abc : List Byte := [0x41, 0x42, 0x43]

/-- `"hello"` -/
def hello : List Byte := [0x68, 0x65, 0x6C, 0x6C, 0x6F]

/-- `START "009:ABC:hello" END` -/
def f14 : List Byte :=
  [0x02, 0x30, 0x30, 0x39, 0x3A, 0x41, 0x42, 0x43, 0x3A, 0x68, 0x65, 0x6C, 0x6C, 0x6F, 0x03]

/-- The frame `f` of spec/95_test_vectors.md. -/
def f : List Byte := f14 ++ [0x35, 0x34, 0x46, 0x34]

/-- `ReadingChecksum` three digits into the checksum of `f`, begun at time 0. -/
def atLastByte : ParserState := .readingChecksum 0 l009 abc hello hello [0x35, 0x34, 0x46]

/-- The next state of an outcome, if it is one. -/
def nextState : Host.Outcome State Fault Refusal → Option State
  | .next t => some t
  | .fault _ => none
  | .refused _ => none

/-- Brings an outcome's equation to one that can be decided. -/
theorem eq_next_iff {o : Host.Outcome State Fault Refusal} {t : State} :
    o = .next t ↔ nextState o = some t := by
  cases o <;> simp [nextState]

/-! ## WellFormed refuses an ill-formed term, for each check -/

theorem test_wellFormed_crc16 : (Instr.crc16 (List.replicate 65536 0)).WellFormed = false := by
  simp [-List.reduceReplicate, Instr.WellFormed, spanFits]

theorem test_wellFormed_escape : (Instr.escape (List.replicate 65536 0)).WellFormed = false := by
  simp [-List.reduceReplicate, Instr.WellFormed, spanFits]

theorem test_wellFormed_unescape :
    (Instr.unescape (List.replicate 65536 0)).WellFormed = false := by
  simp [-List.reduceReplicate, Instr.WellFormed, spanFits]

theorem test_wellFormed_encode_type :
    (Instr.encode (List.replicate 256 0) []).WellFormed = false := by
  simp [-List.reduceReplicate, Instr.WellFormed, typeFits]

theorem test_wellFormed_encode_payload :
    (Instr.encode [] (List.replicate 65536 0)).WellFormed = false := by
  simp [-List.reduceReplicate, Instr.WellFormed, spanFits]

theorem test_wellFormed_decode :
    (Instr.decode 0 (List.replicate 65536 0)).WellFormed = false := by
  simp [-List.reduceReplicate, Instr.WellFormed, spanFits]

/-- The largest operands the port carries are well formed (20_memory.md R60). -/
theorem test_wellFormed_largest :
    (Instr.encode (List.replicate 255 0) (List.replicate 65535 0)).WellFormed = true := by
  simp [-List.reduceReplicate, Instr.WellFormed, typeFits, spanFits]

/-! ## Config.wf refuses a configuration that breaks one item of 00_scope.md R9 -/

theorem test_wf_default : Config.default.wf = true := by decide

theorem test_wf_equal_markers :
    { Config.default with endMarker := 0x02#8 }.wf = false := by decide

theorem test_wf_digit_marker :
    { Config.default with escMarker := 0x30#8 }.wf = false := by decide

theorem test_wf_hex_letter_marker :
    { Config.default with escMarker := 0x46#8 }.wf = false := by decide

theorem test_wf_colon_marker :
    { Config.default with startMarker := 0x3A#8 }.wf = false := by decide

theorem test_wf_marker_image :
    { Config.default with endMarker := 0x22#8 }.wf = false := by decide

theorem test_wf_frame_too_small :
    { Config.default with maxFrameSize := 13 }.wf = false ∧
      { Config.default with maxFrameSize := 14 }.wf = true := by decide

theorem test_wf_frame_too_large :
    { Config.default with maxFrameSize := 1010 }.wf = false ∧
      { Config.default with maxFrameSize := 1009 }.wf = true := by decide

theorem test_wf_timeout :
    { Config.default with timeWidth := 12 }.wf = false ∧
      { Config.default with timeWidth := 13 }.wf = true := by decide

theorem test_wf_counter :
    { Config.default with counterWidth := 33 }.wf = false := by decide

/-! ## Decoding words written out from 30_encoding.md R79 -/

theorem test_decode_crc16 :
    decodeCommand [0x01, 0x00, 0x02, 0x41, 0x42] = .ok (.crc16 [0x41, 0x42]) := by decide

theorem test_decode_escape :
    decodeCommand [0x02, 0x00, 0x01, 0x1B] = .ok (.escape [0x1B]) := by decide

theorem test_decode_unescape :
    decodeCommand [0x03, 0x00, 0x02, 0x1B, 0x22] = .ok (.unescape [0x1B, 0x22]) := by decide

theorem test_decode_encode :
    decodeCommand [0x04, 0x02, 0x41, 0x42, 0x00, 0x01, 0x7A] =
      .ok (.encode [0x41, 0x42] [0x7A]) := by decide

theorem test_decode_decode :
    decodeCommand [0x05, 0x01, 0x02, 0x03, 0x04, 0x00, 0x01, 0x7A] =
      .ok (.decode 0x01020304#32 [0x7A]) := by decide

theorem test_decode_feed :
    decodeCommand [0x06, 0x80, 0x00, 0x00, 0x64, 0x34] = .ok (.feed 0x80000064#32 0x34) := by
  decide

theorem test_decode_tick :
    decodeCommand [0x07, 0x00, 0x00, 0x17, 0x70] = .ok (.tick 6000) := by decide

theorem test_decode_stats : decodeCommand [0x08] = .ok .stats := by decide

theorem test_decode_reset : decodeCommand [0x09] = .ok .reset := by decide

/-- K6-4 to K6-11, and the corner case of section 2. -/
theorem test_decode_errors :
    decodeCommand [0x00] = .error .illegalCommand ∧
    decodeCommand [0x0A] = .error .illegalCommand ∧
    decodeCommand [0xFF] = .error .illegalCommand ∧
    decodeCommand [] = .error .malformedCommand ∧
    decodeCommand [0x08, 0x00] = .error .malformedCommand ∧
    decodeCommand [0x09, 0x00] = .error .malformedCommand ∧
    decodeCommand [0x06, 0x00, 0x00, 0x00, 0x00] = .error .malformedCommand ∧
    decodeCommand [0x07, 0x00, 0x00, 0x13] = .error .malformedCommand ∧
    decodeCommand [0x01, 0x00, 0x05, 0x41] = .error .malformedCommand := by decide

/-- A table word holds the opcode in bits 7..0; the bits above are zero operands. -/
theorem test_decodeTableWord :
    decodeTableWord 8 0x06 = some (.feed 0 0) ∧ decodeTableWord 8 0x04 = some (.encode [] []) ∧
      decodeTableWord 8 0x0A = none ∧ decodeTableWord 16 0x0008 = none := by decide

theorem test_withFetchWord :
    step (State.reset.withFetchWord 8 0x08) =
      .next { State.reset with response := some (List.replicate 21 0x00#8) } := by
  simp only [eq_next_iff]
  decide +kernel

/-! ## Commands, one step each -/

/-- Section 2, the span of `f`. -/
theorem test_crc16 :
    exec (.crc16 (l009 ++ 0x3A :: abc ++ 0x3A :: hello)) State.reset =
      .next { State.reset with response := some [0x00#8, 0x54#8, 0xF4#8] } := by
  simp only [eq_next_iff]
  decide +kernel

/-- 40_crc.md R100 by hand, with one reflection on: from register 0 the byte `01` leaves the
polynomial `1021`, so `80` does under REFIN alone, and `01` leaves its mirror `8408` under REFOUT
alone. -/
theorem test_crc16_reflections_differ :
    let c := { Config.default with crcInit := 0#16 }
    crc16 { c with crcRefin := true } [0x80] = 0x1021#16 ∧
      crc16 { c with crcRefout := true } [0x01] = 0x8408#16 := by
  decide +kernel

/-- 00_scope.md R12 by hand: four different digits, letters among them, in order. -/
theorem test_hex4_order : hex4 0x9AF0#16 = [0x39#8, 0x41#8, 0x46#8, 0x30#8] := by decide

/-- Section 3. -/
theorem test_escape :
    exec (.escape [0x02, 0x03, 0x1B]) State.reset =
      .next { State.reset with
        response := some [0x00#8, 0x00#8, 0x00#8, 0x00#8, 0x06#8, 0x1B#8, 0x22#8, 0x1B#8, 0x23#8,
          0x1B#8, 0x3B#8] } := by
  simp only [eq_next_iff]
  decide +kernel

/-- V4-1. -/
theorem test_encode :
    exec (.encode abc hello) State.reset =
      .next { State.reset with
        response := some (0x00#8 :: 0x00#8 :: 0x00#8 :: 0x00#8 :: 0x13#8 :: f) } := by
  simp only [eq_next_iff]
  decide +kernel

/-- V4-11: InvalidType comes before PayloadTooLarge. -/
theorem test_encode_priority :
    exec (.encode [0x41, 0x42] (List.replicate 996 0x78)) State.reset =
      .next { State.reset with response := some [0x10#8] } := by
  simp only [eq_next_iff]
  decide +kernel

/-- V4-13. -/
theorem test_decode_frame :
    exec (.decode 7 f) State.reset =
      .next { State.reset with
        response := some [0x01#8, 0x41#8, 0x42#8, 0x43#8, 0x00#8, 0x05#8, 0x68#8, 0x65#8, 0x6C#8,
          0x6C#8, 0x6F#8, 0x54#8, 0xF4#8, 0x00#8, 0x00#8, 0x00#8, 0x07#8] } := by
  simp only [eq_next_iff]
  decide +kernel

/-- V4-16: a byte after the frame. -/
theorem test_decode_trailing :
    exec (.decode 0 (f ++ [0x7A])) State.reset =
      .next { State.reset with response := some [0x30#8] } := by
  simp only [eq_next_iff]
  decide +kernel

/-- P5-26: the last byte of `f` exactly `TIMEOUT_MS` after its START. -/
theorem test_feed_frame :
    exec (.feed 5000 0x34) (parsing atLastByte) =
      .next { State.reset with
        stats := ⟨0, 1, 0, 0, 0⟩
        response := some [0x01#8, 0x41#8, 0x42#8, 0x43#8, 0x00#8, 0x05#8, 0x68#8, 0x65#8, 0x6C#8,
          0x6C#8, 0x6F#8, 0x54#8, 0xF4#8, 0x00#8, 0x00#8, 0x13#8, 0x88#8] } := by
  simp only [eq_next_iff]
  decide +kernel

/-- K6-13: `attempted` wraps. -/
theorem test_feed_counter_wraps :
    exec (.feed 0 0x02) { State.reset with stats := ⟨0xFFFFFFFF, 0, 0, 0, 0⟩ } =
      .next { State.reset with
        parser := .readingLength 0 [], response := some [0x00#8] } := by
  simp only [eq_next_iff]
  decide +kernel

/-- P5-29. -/
theorem test_tick_timeout :
    exec (.tick 5001) (parsing (.readingType 0 l009 [])) =
      .next { State.reset with stats := ⟨0, 0, 0, 0, 1⟩, response := some [0x00#8] } := by
  simp only [eq_next_iff]
  decide +kernel

/-- Program 3's last STATS. -/
theorem test_stats :
    exec .stats { State.reset with stats := ⟨3, 0, 2, 1, 0⟩ } =
      .next { State.reset with
        stats := ⟨3, 0, 2, 1, 0⟩
        response := some [0x00#8, 0#8, 0#8, 0#8, 3#8, 0#8, 0#8, 0#8, 0#8, 0#8, 0#8, 0#8, 2#8,
          0#8, 0#8, 0#8, 1#8, 0#8, 0#8, 0#8, 0#8] } := by
  simp only [eq_next_iff]
  decide +kernel

/-- K6-3. -/
theorem test_reset :
    exec .reset { parsing (.readingPayload 0 l009 abc [] false) with stats := ⟨3, 1, 1, 0, 0⟩ } =
      .next { State.reset with response := some [0x00#8] } := by
  simp only [eq_next_iff]
  decide +kernel

/-- Section 6: the error rates of K6-2 and of program 3. -/
theorem test_errorRate :
    errorRate 1 0 0 0 = 0 ∧ errorRate 3 2 1 0 = 1 ∧ errorRate 0 0 0 0 = 0 := by
  norm_num [errorRate]

/-- 30_encoding.md R87: a comment, a string escape and a bracket list with a name. -/
theorem test_assemble :
    assembleLine Config.default "UNESCAPE [ESC, 0x22] ; START".toList =
        some [[0x03, 0x00, 0x02, 0x1B, 0x22]] ∧
      assembleLine Config.default "CRC16 \"\\x02A\"".toList =
        some [[0x01, 0x00, 0x02, 0x02, 0x41]] ∧
      assembleLine Config.default "FEEDWIRE 0, \"AB\", \"\"".toList = none := by
  decide +kernel

/-! ## Witnesses: reset, configuration, command port -/

/-- The items of 00_scope.md R9, each broken by one configuration (marker equal to another, digit,
image of a marker, frame sizes 13 and 1010, timeout `2^TIME_WIDTH`). -/
theorem witness_IllFormedConfigurationRefused :
    (∀ c ∈ [{ Config.default with endMarker := 0x02#8 },
        { Config.default with escMarker := 0x39#8 },
        { Config.default with endMarker := 0x22#8 },
        { Config.default with maxFrameSize := 13 },
        { Config.default with maxFrameSize := 1010 },
        { Config.default with timeoutMs := 4096#32, timeWidth := 12 }],
      ¬ ((c.startMarker ≠ c.endMarker ∧ c.startMarker ≠ c.escMarker ∧
          c.endMarker ≠ c.escMarker) ∧
        (∀ m ∈ [c.startMarker, c.endMarker, c.escMarker],
          ¬ (0x30 ≤ m.toNat ∧ m.toNat ≤ 0x39) ∧ ¬ (0x41 ≤ m.toNat ∧ m.toNat ≤ 0x46) ∧
            m ≠ 0x3A#8) ∧
        (∀ m ∈ [c.startMarker, c.endMarker, c.escMarker],
          ∀ n ∈ [c.startMarker, c.endMarker, c.escMarker], m ^^^ 0x20#8 ≠ n) ∧
        (14 ≤ c.maxFrameSize ∧ c.maxFrameSize ≤ 1009) ∧
        c.timeoutMs.toNat < 2 ^ c.timeWidth) ∧
      (State.powerOn c).cfg = c) := by
  decide +kernel

/-- The least configuration of each bound: 14-byte frames, a timeout of 0, widths of 0. -/
def leastConfig : Config :=
  { Config.default with maxFrameSize := 14, timeoutMs := 0, timeWidth := 0, counterWidth := 0 }

theorem witness_InstantiatedBlockAlwaysSteps :
    ∀ c ∈ [Config.default, leastConfig],
      (c.startMarker ≠ c.endMarker ∧ c.startMarker ≠ c.escMarker ∧ c.endMarker ≠ c.escMarker) ∧
      (∀ m ∈ [c.startMarker, c.endMarker, c.escMarker],
        ¬ (0x30 ≤ m.toNat ∧ m.toNat ≤ 0x39) ∧ ¬ (0x41 ≤ m.toNat ∧ m.toNat ≤ 0x46) ∧
          m ≠ 0x3A#8) ∧
      (∀ m ∈ [c.startMarker, c.endMarker, c.escMarker],
        ∀ n ∈ [c.startMarker, c.endMarker, c.escMarker], m ^^^ 0x20#8 ≠ n) ∧
      14 ≤ c.maxFrameSize ∧ c.maxFrameSize ≤ 1009 ∧ c.timeoutMs.toNat < 2 ^ c.timeWidth ∧
      c.counterWidth ≤ 32 := by
  decide +kernel

theorem witness_ConfigurationNeverChanges :
    step (presenting [0x09]) = .next { State.reset with response := some [0x00#8] } := by
  simp only [eq_next_iff]
  decide +kernel

theorem witness_StepRunsDecodedCommand :
    let s := { State.reset with pending := [[0x07, 0, 0, 0x17, 0x70], [0x08]] }
    s.cfg.wf = true ∧ s.pending = [0x07, 0, 0, 0x17, 0x70] :: [[0x08]] ∧
      decodeCommand [0x07, 0, 0, 0x17, 0x70] = .ok (.tick 6000) := by
  decide +kernel

theorem witness_NoCommandHoldsState :
    (parsing atLastByte).cfg.wf = true ∧ (parsing atLastByte).pending = [] := by
  decide +kernel

theorem witness_IllegalOpcodeAnsweredFF :
    ∀ op ∈ [0x00#8, 0x0A#8, 0xFF#8], (presenting [op, 0x08]).cfg.wf = true ∧
      (presenting [op, 0x08]).pending = [op, 0x08] :: [] ∧ (op.toNat = 0x00 ∨ 0x0A ≤ op.toNat) ∧
      step (presenting [op, 0x08]) = .next { State.reset with response := some [0xFF#8] } := by
  simp only [eq_next_iff]
  decide +kernel

/-- One command one byte too short and one too long, for each clause. -/
theorem witness_WrongLengthAnsweredFE :
    (presenting []).cfg.wf = true ∧
    ∀ bytes ∈ [([] : List Byte), [0x01, 0, 2, 0x41], [0x01, 0, 1, 0x41, 0x41], [0x02, 0], [0x03],
        [0x04], [0x04, 3, 0x41, 0x42, 0x43, 0], [0x04, 0, 0, 1], [0x04, 0, 0, 0, 0],
        [0x05, 0, 0, 0, 0, 0], [0x05, 0, 0, 0, 0, 0, 0, 0], [0x06, 0, 0, 0, 0],
        [0x06, 0, 0, 0, 0, 0, 0], [0x07, 0, 0, 0], [0x07, 0, 0, 0, 0, 0], [0x08, 0], [0x09, 0]],
      (bytes = [] ∨
        ((byteAt bytes 0 = 0x01#8 ∨ byteAt bytes 0 = 0x02#8 ∨ byteAt bytes 0 = 0x03#8) ∧
          (bytes.length < 3 ∨
            bytes.length ≠ 3 + ((byteAt bytes 1).toNat * 256 + (byteAt bytes 2).toNat))) ∨
        (byteAt bytes 0 = 0x04#8 ∧
          (bytes.length < 4 + (byteAt bytes 1).toNat ∨
            bytes.length ≠ 4 + (byteAt bytes 1).toNat +
              ((byteAt bytes (2 + (byteAt bytes 1).toNat)).toNat * 256 +
                (byteAt bytes (3 + (byteAt bytes 1).toNat)).toNat))) ∨
        (byteAt bytes 0 = 0x05#8 ∧
          (bytes.length < 7 ∨
            bytes.length ≠ 7 + ((byteAt bytes 5).toNat * 256 + (byteAt bytes 6).toNat))) ∨
        (byteAt bytes 0 = 0x06#8 ∧ bytes.length ≠ 6) ∨
        (byteAt bytes 0 = 0x07#8 ∧ bytes.length ≠ 5) ∨
        (byteAt bytes 0 = 0x08#8 ∧ bytes.length ≠ 1) ∨
        (byteAt bytes 0 = 0x09#8 ∧ bytes.length ≠ 1)) ∧
      step (presenting bytes) = .next { State.reset with response := some [0xFE#8] } := by
  simp only [eq_next_iff]
  decide +kernel

theorem witness_DecodeOfEncode :
    (Instr.encode (List.replicate 255 0) (List.replicate 65535 0)).WellFormed = true ∧
      (Instr.feed 0xFFFFFFFF#32 0xFF#8).WellFormed = true := by
  simp [-List.reduceReplicate, Instr.WellFormed, typeFits, spanFits]

theorem witness_EncodeOfDecode :
    decodeCommand [0x04, 0, 0, 1, 0x02] = .ok (.encode [] [0x02]) := by decide

theorem witness_PseudoCommandsExpand :
    exec (.encode abc hello) State.reset =
        .next { State.reset with response := some (0x00#8 :: beBytes 4 f.length ++ f) } ∧
      exec (.encode [] hello) State.reset =
        .next { State.reset with response := some [0x10#8] } := by
  simp only [eq_next_iff]
  decide +kernel

theorem witness_StatusByteIsOfTable :
    (presenting [0x08, 0x08]).pending = [0x08, 0x08] :: [] ∧
      step (presenting [0x08, 0x08]) = .next { State.reset with response := some [0xFE#8] } := by
  simp only [eq_next_iff]
  decide +kernel

theorem witness_ReportedErrorChangesNoState :
    (presenting [0x03, 0, 1, 0x1B]).pending = [0x03, 0, 1, 0x1B] :: [] ∧
      step (presenting [0x03, 0, 1, 0x1B]) =
        .next { State.reset with response := some [0x20#8] } ∧
      (0x20#8 : Byte) ≠ 0x00#8 ∧ (0x20#8 : Byte) ≠ 0x01#8 := by
  simp only [eq_next_iff]
  decide +kernel

/-! ## Witnesses: engines and codecs -/

/-- The length field `"009"` is three digits. -/
theorem l009_isLengthField : IsLengthField l009 := ⟨rfl, by decide⟩

/-- The default block three digits into a checksum, with one attempt counted, is a legal state. -/
theorem atLastByte_inv : { parsing atLastByte with stats := ⟨1, 0, 0, 0, 0⟩ : State }.Inv := by
  refine ⟨by decide, ⟨l009_isLengthField, rfl, by decide, by decide, by decide, by decide⟩, ?_⟩
  unfold Stats.Bounded
  decide

/-- The default block with a payload of `"hello"` received is a legal state. -/
theorem hello_inv : (parsing (.readingPayload 0 l009 abc hello false)).Inv :=
  ⟨by decide, ⟨l009_isLengthField, rfl, by decide, by decide⟩, by unfold Stats.Bounded; decide⟩

/-- The default block with a payload of `"hell"` received is a legal state, though it disagrees with
the length field. -/
theorem hell_inv : (parsing (.readingPayload 0 l009 abc (hello.take 4) false)).Inv :=
  ⟨by decide, ⟨l009_isLengthField, rfl, by decide, by decide⟩, by unfold Stats.Bounded; decide⟩

theorem witness_ResponseSizes :
    { parsing atLastByte with stats := ⟨1, 0, 0, 0, 0⟩ : State }.Inv ∧
      (Instr.feed 5000 0x34).WellFormed = true ∧
      ∃ t, exec (.feed 5000 0x34) { parsing atLastByte with stats := ⟨1, 0, 0, 0, 0⟩ } =
        .next t :=
  ⟨atLastByte_inv, rfl, _, rfl⟩

theorem witness_Crc16TotalAndEmpty :
    Config.default.crcRefout = false ∧
      { Config.default with crcRefout := true }.crcRefout = true := by decide

theorem witness_ReflectMovesBits :
    0 < 8 ∧ (reflect8 0x01#8).getLsbD 7 = true ∧ 15 < 16 ∧
      (reflect16 0x8000#16).getLsbD 0 = true := by
  decide

/-- Both values of each reflection, one on without the other. -/
theorem witness_Crc16RunsByteLoop :
    let c := { Config.default with crcRefin := true }
    let d := { Config.default with crcRefout := true }
    c.crcRefin = true ∧ c.crcRefout = false ∧ d.crcRefin = false ∧ d.crcRefout = true := by
  decide

theorem witness_SingleByteChangeChangesChecksum :
    Config.default.crcPoly.getLsbD 0 = true ∧ (0x65#8 : Byte) ≠ 0x6A#8 := by decide

/-- Section 3: an answer and an error. -/
theorem witness_UnescapeAnswersSpanOrError :
    unescape Config.default [0x1B, 0x1B] = some [0x3B] ∧
      unescape Config.default [0x41, 0x1B] = none := by decide

theorem witness_EscapeProperties :
    Config.default.wf = true ∧
      (escape Config.default [0x1B])[0]? = some Config.default.escMarker := by decide

theorem witness_UnescapeAcceptsEveryPair :
    unescape Config.default [0x41] = some [0x41] ∧
      (0x02#8 : Byte) ≠ Config.default.escMarker := by decide

/-- V4-5, V4-7 and V4-8: the three clauses at the bounds of the type and of the budget. -/
theorem witness_EncodeAnswersWireFrame :
    ([0x41#8, 0x42#8] : List Byte).length ≠ 3 ∧ abc.length = 3 ∧
      Config.default.payloadBudget <
        4 + (escape Config.default (List.replicate 996 0x78#8)).length ∧
      4 + (escape Config.default (List.replicate 995 0x78#8)).length ≤
        Config.default.payloadBudget := by
  decide +kernel

/-- V4-1, for the statements about a wire frame. -/
theorem witness_WireFrameFitsMaxFrameSize :
    Config.default.wf = true ∧ frameEncode Config.default abc hello = .ok f := by
  decide +kernel

/-- The positions of the three markers in the frame of an escaped ESC: START at 0, the ESC at 9 and
END at 11. -/
theorem witness_MarkersInWireFrame :
    Config.default.wf = true ∧
      ∃ wire, frameEncode Config.default abc [0x1B] = .ok wire ∧
        wire[0]? = some 0x02#8 ∧ wire[9]? = some 0x1B#8 ∧ wire[11]? = some 0x03#8 :=
  ⟨by decide, _, rfl, by decide +kernel, by decide +kernel, by decide +kernel⟩

/-- The bounds of `n`, a length field, two equal fields and a digit of one. -/
theorem witness_NumeralsDetermineValues :
    0 ≤ 999 ∧ 999 ≤ 999 ∧ IsLengthField l009 ∧ hex4 0x54F4#16 = hex4 0x54F4#16 ∧ (0x46#8 : Byte) ∈ hex4 0x54F4#16 :=
  ⟨by decide, by decide, l009_isLengthField, rfl, by decide⟩

/-- V4-13, V4-17 and V4-19: a frame, a truncated one and a mismatch. -/
theorem witness_DecodeAnswersFrameOrError :
    frameDecode Config.default f 7 = .ok ⟨abc, hello, 0x54F4#16, 7⟩ ∧
      frameDecode Config.default (f14 ++ [0x35, 0x34, 0x46]) 7 = .error .malformed ∧
      frameDecode Config.default (f.set 10 0x6A) 7 = .error .checksumMismatch := by
  decide +kernel

theorem witness_DecodeInvertsEncode :
    Config.default.wf = true ∧ frameEncode Config.default abc hello = .ok f ∧
      Config.default.resyncOnStart = false ∧
      resyncConfig.wf = true ∧ frameEncode resyncConfig abc hello = .ok f ∧
      resyncConfig.startMarker ∉ abc := by
  decide +kernel

theorem witness_ResyncRefusesStartInType :
    resyncConfig.wf = true ∧
      (∃ wire, frameEncode resyncConfig [0x41, 0x02, 0x43] [] = .ok wire) ∧
      resyncConfig.resyncOnStart = true ∧
      resyncConfig.startMarker ∈ ([0x41, 0x02, 0x43] : List Byte) :=
  ⟨by decide, ⟨_, rfl⟩, rfl, by decide⟩

/-! ## Witnesses: the parser -/

/-- P5-34: a wrap of the time; and both explicit differences at their bounds. -/
theorem witness_ElapsedIsModular :
    elapsed Config.default 0xFFFFF000#32 0x00000100#32 = 4352 ∧
      (0 : U32).toNat ≤ (0 : U32).toNat ∧ (0 : U32).toNat = (0 : U32).toNat + 0 ∧
      0 < 2 ^ Config.default.timeWidth ∧ (1 : U32).toNat = (0 : U32).toNat + 1 ∧
      1 < 2 ^ Config.default.timeWidth := by
  decide +kernel

/-- P5-28, P5-29 and P5-33. -/
theorem witness_TickAppliesTimeout :
    State.reset.parser = .idle ∧
      (parsing (.readingType 0 l009 [])).parser.start? = some 0 ∧
      elapsed Config.default 0 5000 ≤ Config.default.timeoutMs.toNat ∧
      Config.default.timeoutMs.toNat < elapsed Config.default 0 5001 := by
  decide +kernel

theorem witness_FeedInIdle :
    State.reset.parser = .idle ∧ (0x02#8 : Byte) = State.reset.cfg.startMarker ∧
      (0x03#8 : Byte) ≠ State.reset.cfg.startMarker := by
  decide

/-- The four clauses: a digit at each bound, a byte next to the digits, the colon, another byte. -/
theorem witness_FeedInReadingLength :
    elapsed State.reset.cfg 0 5000 ≤ State.reset.cfg.timeoutMs.toNat ∧
      State.reset.cfg.resyncOnStart = false ∧
      ([0x30#8, 0x30#8] : List Byte).length < 3 ∧ l009.length = 3 ∧
      0x30 ≤ (0x30#8 : Byte).toNat ∧ (0x39#8 : Byte).toNat ≤ 0x39 ∧
      exec (.feed 5000 0x39) (parsing (.readingLength 0 [0x30, 0x30])) =
        .next { parsing (.readingLength 0 l009) with response := some [0x00#8] } ∧
      exec (.feed 5000 0x3A) (parsing (.readingLength 0 [0x30, 0x30])) =
        .next { State.reset with stats := ⟨0, 0, 0, 1, 0⟩, response := some [0x00#8] } ∧
      exec (.feed 5000 0x3A) (parsing (.readingLength 0 l009)) =
        .next { parsing (.readingType 0 l009 []) with response := some [0x00#8] } ∧
      exec (.feed 5000 0x58) (parsing (.readingLength 0 l009)) =
        .next { State.reset with stats := ⟨0, 0, 0, 1, 0⟩, response := some [0x00#8] } := by
  simp only [eq_next_iff]
  decide +kernel

/-- The three clauses (P5-8, P5-10). -/
theorem witness_FeedInReadingType :
    elapsed State.reset.cfg 0 5000 ≤ State.reset.cfg.timeoutMs.toNat ∧
      State.reset.cfg.resyncOnStart = false ∧
      exec (.feed 5000 0x3A) (parsing (.readingType 0 l009 [0x41, 0x42])) =
        .next { parsing (.readingType 0 l009 [0x41, 0x42, 0x3A]) with
          response := some [0x00#8] } ∧
      exec (.feed 5000 0x3A) (parsing (.readingType 0 l009 abc)) =
        .next { parsing (.readingPayload 0 l009 abc [] false) with response := some [0x00#8] } ∧
      exec (.feed 5000 0x58) (parsing (.readingType 0 l009 abc)) =
        .next { State.reset with stats := ⟨0, 0, 0, 1, 0⟩, response := some [0x00#8] } := by
  simp only [eq_next_iff]
  decide +kernel

/-- P5-17 to P5-20: 994 bytes kept, then an ESC that is kept as the 995th; and 995 bytes kept, then
an END that an ESC makes the 996th. -/
theorem witness_FeedKeepsPayloadByte :
    elapsed State.reset.cfg 0 5000 ≤ State.reset.cfg.timeoutMs.toNat ∧
      ((0x1B#8 : Byte) ≠ State.reset.cfg.endMarker ∧ State.reset.cfg.resyncOnStart = false) ∧
      4 + ((List.replicate 994 0x78#8).length + 1) ≤ State.reset.cfg.payloadBudget ∧
      State.reset.cfg.payloadBudget < 4 + ((List.replicate 995 0x78#8).length + 1) ∧
      exec (.feed 0 0x03)
          (parsing (.readingPayload 0 l009 abc (List.replicate 995 0x78) true)) =
        .next { State.reset with stats := ⟨0, 0, 0, 1, 0⟩, response := some [0x00#8] } := by
  simp only [eq_next_iff]
  decide +kernel

/-- Both clauses: `"hell"` and `"hello"` under the length field `"009"`. -/
theorem witness_FeedEndsPayload :
    (parsing (.readingPayload 0 l009 abc (hello.take 4) false)).Inv ∧
      (parsing (.readingPayload 0 l009 abc hello false)).Inv ∧
      elapsed Config.default 0 5000 ≤ Config.default.timeoutMs.toNat ∧
      4 + (hello.take 4).length ≠ decVal3 l009 ∧ 4 + hello.length = decVal3 l009 :=
  ⟨hell_inv, hello_inv, by decide +kernel, by decide, by decide⟩

/-- The three clauses; the last is P5-21 with the case of the last digit changed. -/
theorem witness_FeedInReadingChecksum :
    elapsed State.reset.cfg 0 5000 ≤ State.reset.cfg.timeoutMs.toNat ∧
      State.reset.cfg.resyncOnStart = false ∧
      exec (.feed 5000 0x46) (parsing (.readingChecksum 0 l009 abc hello hello [0x35, 0x34])) =
        .next { parsing atLastByte with response := some [0x00#8] } ∧
      ([0x35#8, 0x34#8, 0x46#8] ++ [0x34#8] : List Byte) =
        hex4 (crc16 State.reset.cfg (l009 ++ [0x3A#8] ++ abc ++ [0x3A#8] ++ hello)) ∧
      exec (.feed 5000 0x33) (parsing atLastByte) =
        .next { State.reset with stats := ⟨0, 0, 1, 0, 0⟩, response := some [0x00#8] } := by
  simp only [eq_next_iff]
  decide +kernel

/-- P5-6, and that `RESYNC_ON_START = false` is the default. -/
theorem witness_FeedResynchronises :
    (ParserState.readingPayload 0 l009 abc [] false).start? = some 0 ∧
      elapsed resyncConfig 0 5000 ≤ resyncConfig.timeoutMs.toNat ∧
      resyncConfig.resyncOnStart = true ∧
      (∀ start' lenDigits typ raw, ParserState.readingPayload 0 l009 abc [] false ≠
        .readingPayload start' lenDigits typ raw true) ∧
      Config.default.resyncOnStart = false :=
  ⟨rfl, by decide +kernel, rfl, by simp, rfl⟩

/-- P5-30 and P5-31. -/
theorem witness_FeedFindsTimeout :
    (parsing (.readingType 0 l009 [])).parser.start? = some 0 ∧
      State.reset.cfg.timeoutMs.toNat < elapsed State.reset.cfg 0 5001 ∧
      (0x41#8 : Byte) ≠ State.reset.cfg.startMarker := by
  decide +kernel

theorem witness_FeedEventBounds :
    exec (.feed 6000 0x02) (parsing (.readingType 0 l009 [])) =
      .next { State.reset with
        parser := .readingLength 6000 [], stats := ⟨1, 0, 0, 0, 1⟩
        response := some [0x00#8] } := by
  simp only [eq_next_iff]
  decide +kernel

theorem witness_EmittedFrameChecksumMatches :
    { parsing atLastByte with stats := ⟨1, 0, 0, 0, 0⟩ : State }.Inv ∧
      exec (.feed 0 0x34) { parsing atLastByte with stats := ⟨1, 0, 0, 0, 0⟩ } =
        .next { State.reset with
          stats := ⟨1, 1, 0, 0, 0⟩
          response := some (0x01#8 :: frameBytes ⟨abc, hello, 0x54F4#16, 0⟩) } :=
  ⟨atLastByte_inv, eq_next_iff.mpr (by decide +kernel)⟩

theorem witness_NoAttemptOutlivesTimeout :
    exec (.tick 5000) (parsing (.readingType 0 l009 [])) =
        .next { parsing (.readingType 0 l009 []) with response := some [0x00#8] } ∧
      (parsing (.readingType 0 l009 [])).parser.start? = some 0 := by
  simp only [eq_next_iff]
  decide +kernel

/-! ## Witnesses: statistics and the whole machine -/

theorem witness_StatsAnswersCounters :
    { parsing atLastByte with stats := ⟨1, 0, 0, 0, 0⟩ : State }.Inv := atLastByte_inv

theorem witness_PureCommandsWriteNothing :
    isPureCommand .stats = true ∧
      exec .stats State.reset =
        .next { State.reset with response := some (List.replicate 21 0x00#8) } ∧
      exec .stats (parsing atLastByte) =
        .next { parsing atLastByte with response := some (List.replicate 21 0x00#8) } := by
  simp only [eq_next_iff]
  decide +kernel

theorem witness_PureCommandsBetweenFeeds :
    isPureCommand (.crc16 []) = true ∧
      exec (.crc16 []) (parsing atLastByte) =
        .next { parsing atLastByte with response := some [0x00#8, 0xFF#8, 0xFF#8] } := by
  simp only [eq_next_iff]
  decide +kernel

/-- A legal state in mid attempt with a command that ends the attempt. -/
theorem witness_StepKeepsLegalState :
    let s := { parsing (.readingPayload 0 l009 abc hello false) with
      pending := [[0x06, 0, 0, 0, 0, 0x03]] }
    s.Inv ∧ step s = .next { State.reset with
      parser := .readingChecksum 0 l009 abc hello hello [], response := some [0x00#8] } :=
  ⟨hello_inv, eq_next_iff.mpr (by decide +kernel)⟩

theorem witness_PowerOnIsLegalAndBalanced : leastConfig.wf = true := by decide

/-- A balanced state with one attempt in progress, and the step that counts its timeout. -/
theorem witness_StepKeepsStatisticsBalanced :
    let s := { parsing (.readingType 0 l009 []) with
      stats := ⟨1, 0, 0, 0, 0⟩, pending := [[0x07, 0, 0, 0x13, 0x89]] }
    s.Balanced ∧ step s = .next { State.reset with
      stats := ⟨1, 0, 0, 0, 1⟩, response := some [0x00#8] } :=
  ⟨rfl, eq_next_iff.mpr (by decide +kernel)⟩

/-- P5-26: 18 bytes at 0 and the last at 5000; and a configuration that resynchronises. -/
theorem witness_FeedingAnEncodedFrameEmitsIt :
    let times := List.replicate 18 (0 : U32) ++ [5000]
    State.reset.cfg.wf = true ∧ State.reset.parser = .idle ∧
      frameEncode State.reset.cfg abc hello = .ok f ∧
      State.reset.cfg.resyncOnStart = false ∧ resyncConfig.startMarker ∉ abc ∧
      times.length = f.length ∧ times.head? = some 0 ∧ times.getLast? = some 5000 ∧
      (∀ t ∈ times, (0 : U32).toNat ≤ t.toNat ∧
        t.toNat ≤ (0 : U32).toNat + State.reset.cfg.timeoutMs.toNat) := by
  refine ⟨by decide, rfl, by decide +kernel, rfl, by decide, rfl, rfl, rfl, ?_⟩
  simp [State.reset, State.powerOn, Config.default]

/-- Section 5.4: `f` with a type byte changed, at both ends of the type. -/
theorem witness_ChangedTypeByteIsMismatch :
    State.reset.cfg.wf = true ∧ State.reset.cfg.crcPoly.getLsbD 0 = true ∧
      State.reset.parser = .idle ∧ State.reset.cfg.resyncOnStart = false ∧
      frameEncode State.reset.cfg abc hello = .ok f ∧ f[5]? ≠ some 0x6A#8 ∧
      f[7]? ≠ some 0x1B#8 := by
  decide +kernel

end Sys2Proof.Tests
end

/-! # Proofs: configuration, steps and numerals (00_scope.md R9, R10, R12) -/

section
namespace Sys2Proof.Machine

/-! ## The items of R9, each against the model's check of it -/

/-- 00_scope.md R9 items 1 to 4 and 6 (item 5 holds by the types), as the obligations write them. -/
def Config.MeetsR9 (c : Config) : Prop :=
  (c.startMarker ≠ c.endMarker ∧ c.startMarker ≠ c.escMarker ∧ c.endMarker ≠ c.escMarker) ∧
  (∀ m ∈ [c.startMarker, c.endMarker, c.escMarker],
    ¬ (0x30 ≤ m.toNat ∧ m.toNat ≤ 0x39) ∧ ¬ (0x41 ≤ m.toNat ∧ m.toNat ≤ 0x46) ∧ m ≠ 0x3A#8) ∧
  (∀ m ∈ [c.startMarker, c.endMarker, c.escMarker],
    ∀ n ∈ [c.startMarker, c.endMarker, c.escMarker], m ^^^ 0x20#8 ≠ n) ∧
  (14 ≤ c.maxFrameSize ∧ c.maxFrameSize ≤ 1009) ∧
  c.timeoutMs.toNat < 2 ^ c.timeWidth

theorem isHeaderByte_eq_false_iff {b : Byte} :
    isHeaderByte b = false ↔
      ¬ (0x30 ≤ b.toNat ∧ b.toNat ≤ 0x39) ∧ ¬ (0x41 ≤ b.toNat ∧ b.toNat ≤ 0x46) ∧ b ≠ 0x3A#8 := by
  rw [← Bool.not_eq_true]
  simp only [isHeaderByte, Bool.or_eq_true, Bool.and_eq_true, decide_eq_true_eq, beq_iff_eq,
    not_or, and_assoc, ne_eq]

theorem Config.markersDistinct_iff {c : Config} :
    c.markersDistinct = true ↔
      c.startMarker ≠ c.endMarker ∧ c.startMarker ≠ c.escMarker ∧ c.endMarker ≠ c.escMarker := by
  simp [Config.markersDistinct, and_assoc]

theorem Config.markersClearOfHeader_iff {c : Config} :
    c.markersClearOfHeader = true ↔
      ∀ m ∈ [c.startMarker, c.endMarker, c.escMarker], isHeaderByte m = false := by
  simp [Config.markersClearOfHeader, and_assoc]

theorem Config.imagesClear_iff {c : Config} :
    c.imagesClear = true ↔
      ∀ m ∈ [c.startMarker, c.endMarker, c.escMarker], c.isReserved (m ^^^ escXor) = false := by
  simp [Config.imagesClear, and_assoc]

/-- The model's check is R9 and the bound that 30_encoding.md R80 adds (log entry 7). -/
theorem Config.wf_iff {c : Config} : c.wf = true ↔ Config.MeetsR9 c ∧ c.counterWidth ≤ 32 := by
  have himage : ∀ m : Byte, c.isReserved (m ^^^ escXor) = false ↔
      ∀ n ∈ [c.startMarker, c.endMarker, c.escMarker], m ^^^ 0x20#8 ≠ n := by
    simp [isReserved_eq_false_iff, escXor]
  simp only [Config.wf, Config.MeetsR9, Bool.and_eq_true, decide_eq_true_eq,
    Config.markersDistinct_iff, Config.markersClearOfHeader_iff, isHeaderByte_eq_false_iff,
    Config.imagesClear_iff, himage, and_assoc]

/-! ## Every command answers, and every answer keeps the configuration -/

/-- No command stops the block (60_exceptions.md R253), and none writes the configuration or the
commands still presented. -/
theorem exec_answers (i : Instr) (s : State) :
    ∃ t, exec i s = .next t ∧ t.cfg = s.cfg ∧ t.pending = s.pending := by
  cases i with
  | crc16 data => exact ⟨_, rfl, rfl, rfl⟩
  | escape data => exact ⟨_, rfl, rfl, rfl⟩
  | unescape data =>
    cases h : unescape s.cfg data <;> simp [exec, execUnescape, h]
  | encode typ payload =>
    cases h : frameEncode s.cfg typ payload <;> simp [exec, execEncode, h]
  | decode now buffer =>
    cases h : frameDecode s.cfg buffer now <;> simp [exec, execDecode, h]
  | feed now byte => exact ⟨_, rfl, by simp, by simp⟩
  | tick now => exact ⟨_, rfl, by simp, by simp⟩
  | stats => exact ⟨_, rfl, rfl, rfl⟩
  | reset => exact ⟨_, rfl, rfl, rfl⟩

theorem exec_keeps_cfg {i : Instr} {s t : State} (h : exec i s = .next t) : t.cfg = s.cfg := by
  obtain ⟨u, hu, hcfg, -⟩ := exec_answers i s
  cases hu.symm.trans h
  exact hcfg

theorem step_answers_of_wf {s : State} (hwf : s.cfg.wf = true) : ∃ t, step s = .next t := by
  unfold step
  rw [if_pos hwf]
  cases takeCommand s with
  | none => exact ⟨_, rfl⟩
  | some taken =>
    obtain ⟨bytes, s'⟩ := taken
    cases hd : decodeCommand bytes with
    | error e => exact ⟨_, by simp only [hd]; rfl⟩
    | ok i =>
      obtain ⟨t, ht, -⟩ := exec_answers i s'
      exact ⟨t, by simpa only [hd] using ht⟩

/-- Settles O3: R9 and R80's bound are the model's check, and every arm of `exec` answers. -/
theorem instantiatedBlockAlwaysSteps : Obligations.InstantiatedBlockAlwaysSteps := by
  intro s hdistinct hheader himages hleast hmost htimeout hwidth
  exact step_answers_of_wf (Config.wf_iff.mpr
    ⟨⟨hdistinct, hheader, himages, ⟨hleast, hmost⟩, htimeout⟩, hwidth⟩)

/-- Settles O4, by the cases of a step. -/
theorem configurationNeverChanges : Obligations.ConfigurationNeverChanges := by
  intro s t h
  obtain ⟨-, ⟨-, rfl⟩ | ⟨bytes, rest, -, ⟨e, -, rfl⟩ | ⟨i, -, hexec⟩⟩⟩ := step_cases h
  case inl => rfl
  case inr.inl => rfl
  case inr.inr =>
    have hcfg := exec_keeps_cfg hexec
    exact hcfg

/-- Settles O2: a configuration that fails R9 fails the check of `instantiate` and of `step`. -/
theorem illFormedConfigurationRefused : Obligations.IllFormedConfigurationRefused := by
  intro c hbroken
  have hwf : ¬ c.wf = true := fun h => hbroken (Config.wf_iff.mp h).1
  refine ⟨if_neg hwf, ?_⟩
  rintro s rfl
  exact if_neg hwf

/-! ## Decimal numerals -/

/-- A length field is three digits, named one by one. -/
theorem isLengthField_iff {d : List Byte} :
    IsLengthField d ↔ ∃ d0 d1 d2, d = [d0, d1, d2] ∧
      isDigit d0 = true ∧ isDigit d1 = true ∧ isDigit d2 = true := by
  constructor
  · rintro ⟨hlen, hdigit⟩
    obtain ⟨d0, d1, d2, rfl⟩ := List.length_eq_three.mp hlen
    exact ⟨d0, d1, d2, rfl, by simpa using hdigit⟩
  · rintro ⟨d0, d1, d2, rfl, h0, h1, h2⟩
    exact ⟨rfl, by simp [h0, h1, h2]⟩

theorem decVal3_cons (d0 d1 d2 : Byte) (rest : List Byte) :
    decVal3 (d0 :: d1 :: d2 :: rest) = 100 * digitVal d0 + 10 * digitVal d1 + digitVal d2 := rfl

theorem isLengthField_dec3 (n : Nat) : IsLengthField (dec3 n) :=
  isLengthField_iff.mpr ⟨_, _, _, rfl, (digitByte_spec (by omega)).1,
    (digitByte_spec (by omega)).1, (digitByte_spec (by omega)).1⟩

theorem decVal3_dec3 {n : Nat} (h : n ≤ 999) : decVal3 (dec3 n) = n := by
  have hval (k : Nat) : digitVal (digitByte (k % 10)) = k % 10 := (digitByte_spec (by omega)).2
  rw [dec3, decVal3_cons, hval, hval, hval]
  omega

theorem dec3_digits {n : Nat} (h : n ≤ 999) :
    dec3 n = [digitByte (n / 100), digitByte (n / 10 % 10), digitByte (n % 10)] := by
  rw [dec3, Nat.mod_eq_of_lt (by omega : n / 100 < 10)]

theorem dec3_decVal3 {d : List Byte} (h : IsLengthField d) : dec3 (decVal3 d) = d := by
  obtain ⟨d0, d1, d2, rfl, h0, h1, h2⟩ := isLengthField_iff.mp h
  obtain ⟨hlt0, hbyte0⟩ := digitByte_digitVal h0
  obtain ⟨hlt1, hbyte1⟩ := digitByte_digitVal h1
  obtain ⟨hlt2, hbyte2⟩ := digitByte_digitVal h2
  rw [decVal3_cons, dec3,
    show (100 * digitVal d0 + 10 * digitVal d1 + digitVal d2) / 100 % 10 = digitVal d0 by omega,
    show (100 * digitVal d0 + 10 * digitVal d1 + digitVal d2) / 10 % 10 = digitVal d1 by omega,
    show (100 * digitVal d0 + 10 * digitVal d1 + digitVal d2) % 10 = digitVal d2 by omega,
    hbyte0, hbyte1, hbyte2]

/-! ## Hexadecimal numerals -/

/-- The digits of `hex4` as the nibbles of the value, most significant first (00_scope.md R12). -/
theorem hex4_digits (v : U16) :
    hex4 v = [hexByte (v.toNat / 2 ^ 12), hexByte (v.toNat / 2 ^ 8 % 16),
      hexByte (v.toNat / 2 ^ 4 % 16), hexByte (v.toNat % 16)] := by
  have htop : v.toNat / 2 ^ 12 % 2 ^ 4 = v.toNat / 2 ^ 12 := Nat.mod_eq_of_lt (by omega)
  simp only [hex4, BitVec.extractLsb'_toNat, Nat.shiftRight_eq_div_pow, htop, Nat.pow_zero,
    Nat.div_one]

theorem hex4_injective {v w : U16} (h : hex4 v = hex4 w) : v = w := by
  simp only [hex4_digits, List.cons.injEq, and_true] at h
  obtain ⟨h3, h2, h1, h0⟩ := h
  have e3 := hexByte_injective (by omega) (by omega) h3
  have e2 := hexByte_injective (by omega) (by omega) h2
  have e1 := hexByte_injective (by omega) (by omega) h1
  have e0 := hexByte_injective (by omega) (by omega) h0
  apply BitVec.eq_of_toNat_eq
  omega

/-- A checksum field holds only `'0'..'9'` and `'A'..'F'`. -/
theorem hex4_range {v : U16} {b : Byte} (hb : b ∈ hex4 v) :
    (0x30 ≤ b.toNat ∧ b.toNat ≤ 0x39) ∨ (0x41 ≤ b.toNat ∧ b.toNat ≤ 0x46) := by
  obtain ⟨x, hx, rfl⟩ : ∃ x < 16, b = hexByte x := by
    simp only [hex4, List.mem_cons, List.not_mem_nil, or_false] at hb
    rcases hb with rfl | rfl | rfl | rfl <;> exact ⟨_, BitVec.isLt _, rfl⟩
  exact hexByte_range hx

/-- Settles O29, each clause by the lemma on that numeral. -/
theorem numeralsDetermineValues : Obligations.NumeralsDetermineValues :=
  ⟨fun n hn => ⟨dec3_digits hn, decVal3_dec3 hn, isLengthField_dec3 n⟩,
    fun d0 d1 d2 _ => decVal3_cons d0 d1 d2 [],
    fun _ => dec3_decVal3,
    hex4_digits,
    fun _ _ => hex4_injective,
    fun _ _ => hex4_range,
    by decide⟩

end Sys2Proof.Machine
end

/-! # Proofs: the invariants of every step (10_state.md R24, R33) -/

section
namespace Sys2Proof.Machine

/-! ## What a command does to the parser and the statistics -/

/-- A FEED's byte without its response: the parser's new state and the events counted. -/
def absorbByte (now : U32) (b : Byte) (s : State) : State :=
  (byteStep s.cfg s.parser b now).2.foldl countEvent
    (setParser (byteStep s.cfg s.parser b now).1 s)

theorem feedByte_eq_respondEvents (now : U32) (b : Byte) (s : State) :
    feedByte now b s =
      respondEvents (byteStep s.cfg s.parser b now).2 (absorbByte now b s) := rfl

@[simp] theorem absorbByte_cfg (now : U32) (b : Byte) (s : State) :
    (absorbByte now b s).cfg = s.cfg := by
  simp [absorbByte]

@[simp] theorem absorbByte_parser (now : U32) (b : Byte) (s : State) :
    (absorbByte now b s).parser = (byteStep s.cfg s.parser b now).1 := by
  simp [absorbByte]

/-- A pure command writes its response and nothing else (20_memory.md R61). -/
theorem exec_pure_writes_response {i : Instr} {s t : State} (hpure : isPureCommand i = true)
    (h : exec i s = .next t) : ∃ st fields, t = respond st fields s := by
  cases i with
  | crc16 data => cases h; exact ⟨_, _, rfl⟩
  | escape data => cases h; exact ⟨_, _, rfl⟩
  | unescape data =>
    simp only [exec, execUnescape] at h
    split at h <;> cases h <;> exact ⟨_, _, rfl⟩
  | encode typ payload =>
    simp only [exec, execEncode] at h
    split at h <;> cases h <;> exact ⟨_, _, rfl⟩
  | decode now buffer =>
    simp only [exec, execDecode] at h
    split at h <;> cases h <;> exact ⟨_, _, rfl⟩
  | stats => cases h; exact ⟨_, _, rfl⟩
  | feed now b => cases hpure
  | tick now => cases hpure
  | reset => cases hpure

/-- The operations that write a block's state keep `P`: those of the command port, the timeout
check, a FEED's byte and the block reset. -/
structure KeptByOperations (P : State → Prop) : Prop where
  port : ∀ s pending response, P s → P { s with pending := pending, response := response }
  timeout : ∀ now s, P s → P (timeoutCheck now s)
  byte : ∀ now b s, P s → P (absorbByte now b s)
  reset : ∀ s, P s → P (resetBlock s)

namespace KeptByOperations

variable {P : State → Prop}

theorem after_respond (hP : KeptByOperations P) (st : Status) (fields : List Byte) {s : State}
    (hs : P s) : P (respond st fields s) :=
  hP.port s s.pending _ hs

theorem after_feedByte (hP : KeptByOperations P) (now : U32) (b : Byte) {s : State}
    (hs : P s) : P (feedByte now b s) := by
  have habsorb := hP.byte now b s hs
  rw [feedByte_eq_respondEvents]
  obtain ⟨-, heq⟩ | ⟨f, -, heq⟩ :=
    respondEvents_cases (byteStep s.cfg s.parser b now).2 (absorbByte now b s)
  · rw [heq]; exact hP.after_respond _ _ habsorb
  · rw [heq]; exact hP.after_respond _ _ habsorb

theorem after_exec (hP : KeptByOperations P) {i : Instr} {s t : State} (hs : P s)
    (h : exec i s = .next t) : P t := by
  cases hpure : isPureCommand i with
  | true =>
    obtain ⟨st, fields, rfl⟩ := exec_pure_writes_response hpure h
    exact hP.after_respond st fields hs
  | false =>
    cases i with
    | feed now b =>
      cases h
      exact hP.after_feedByte now b (hP.timeout now s hs)
    | tick now =>
      cases h
      exact hP.after_respond _ _ (hP.timeout now s hs)
    | reset =>
      cases h
      exact hP.after_respond _ _ (hP.reset s hs)
    | _ => cases hpure

/-- What the operations keep, every step keeps. -/
theorem after_step (hP : KeptByOperations P) {s t : State} (hs : P s) (h : step s = .next t) :
    P t := by
  obtain ⟨-, ⟨-, rfl⟩ | ⟨bytes, rest, -, ⟨e, -, rfl⟩ | ⟨i, -, hexec⟩⟩⟩ := step_cases h
  case inl => exact hs
  case inr.inl => exact hP.port s rest _ hs
  case inr.inr => exact hP.after_exec (hP.port s rest s.response hs) hexec

end KeptByOperations

/-! ## The per-byte step keeps the legal parser states (10_state.md R24) -/

theorem idleArm_legal (c : Config) (b : Byte) (now : U32) : (idleArm c b now).1.Legal c := by
  unfold idleArm
  split
  · simp [ParserState.Legal]
  · trivial

theorem lengthArm_legal {c : Config} {start : U32} {lenDigits : List Byte}
    (h : (ParserState.readingLength start lenDigits).Legal c) (b : Byte) :
    (lengthArm start lenDigits b).1.Legal c := by
  obtain ⟨hlen, hdigits⟩ := h
  unfold lengthArm
  split_ifs with hshort hb hcolon
  · refine ⟨by simp; omega, ?_⟩
    simpa [or_imp, forall_and, hb] using hdigits
  · trivial
  · exact ⟨⟨by omega, hdigits⟩, by simp⟩
  · trivial

/-- The first payload state is within the budget because `MAX_FRAME_SIZE` is at least 14 (R9). -/
theorem typeArm_legal {c : Config} (hwf : c.wf = true) {start : U32} {lenDigits typ : List Byte}
    (h : (ParserState.readingType start lenDigits typ).Legal c) (b : Byte) :
    (typeArm start lenDigits typ b).1.Legal c := by
  obtain ⟨hlenDigits, htyp⟩ := h
  obtain ⟨hleast, -, hbudget, -⟩ := Config.wf_sizes hwf
  unfold typeArm
  split_ifs with hshort hcolon
  · exact ⟨hlenDigits, by simp; omega⟩
  · exact ⟨hlenDigits, by omega, by simp; omega, rfl⟩
  · trivial

theorem appendRaw_legal {c : Config} {start : U32} {lenDigits typ raw : List Byte} {esc : Bool}
    (h : (ParserState.readingPayload start lenDigits typ raw esc).Legal c) (b : Byte) :
    (appendRaw c start lenDigits typ raw b (escFlagNext c esc b)).1.Legal c := by
  obtain ⟨hlenDigits, htyp, -, hesc⟩ := h
  unfold appendRaw
  split_ifs with hbudget
  · trivial
  · exact ⟨hlenDigits, htyp, by omega, by rw [escFlag_append_singleton, hesc]⟩

theorem endPayload_legal {c : Config} {start : U32} {lenDigits typ raw : List Byte} {esc : Bool}
    (h : (ParserState.readingPayload start lenDigits typ raw esc).Legal c) :
    (endPayload c start lenDigits typ raw).1.Legal c := by
  obtain ⟨hlenDigits, htyp, hbudget, -⟩ := h
  unfold endPayload
  split_ifs with hlen
  · trivial
  · split
    · rename_i payload hpayload
      exact ⟨hlenDigits, htyp, hbudget, by omega, hpayload, by simp⟩
    · trivial

/-- A payload byte is the unescaped END, or it is kept with the escape flag of R26. -/
theorem payloadArm_eq (c : Config) (start : U32) (lenDigits typ raw : List Byte) (esc : Bool)
    (b : Byte) :
    payloadArm c start lenDigits typ raw esc b =
      if esc = false ∧ b = c.endMarker then endPayload c start lenDigits typ raw
      else appendRaw c start lenDigits typ raw b (escFlagNext c esc b) := by
  cases esc with
  | true => simp [payloadArm, escFlagNext]
  | false =>
    by_cases hesc : b = c.escMarker
    · simp [payloadArm, escFlagNext, hesc]
    · simp [payloadArm, escFlagNext, hesc, beq_eq_false_iff_ne.mpr hesc]

theorem payloadArm_legal {c : Config} {start : U32} {lenDigits typ raw : List Byte} {esc : Bool}
    (h : (ParserState.readingPayload start lenDigits typ raw esc).Legal c) (b : Byte) :
    (payloadArm c start lenDigits typ raw esc b).1.Legal c := by
  rw [payloadArm_eq]
  split
  · exact endPayload_legal h
  · exact appendRaw_legal h b

theorem checksumArm_legal {c : Config} {start : U32} {lenDigits typ raw payload cs : List Byte}
    (h : (ParserState.readingChecksum start lenDigits typ raw payload cs).Legal c) (b : Byte)
    (now : U32) : (checksumArm c start lenDigits typ raw payload cs b now).1.Legal c := by
  obtain ⟨hlenDigits, htyp, hbudget, hlen, hpayload, -⟩ := h
  simp only [checksumArm]
  split_ifs with hshort
  · exact ⟨hlenDigits, htyp, hbudget, hlen, hpayload, by simp; omega⟩
  · trivial
  · trivial

theorem byteArm_legal {c : Config} (hwf : c.wf = true) {q : ParserState} (hq : q.Legal c)
    (b : Byte) (now : U32) : (byteArm c q b now).1.Legal c := by
  cases q with
  | idle => exact idleArm_legal c b now
  | readingLength start lenDigits => exact lengthArm_legal hq b
  | readingType start lenDigits typ => exact typeArm_legal hwf hq b
  | readingPayload start lenDigits typ raw esc => exact payloadArm_legal hq b
  | readingChecksum start lenDigits typ raw payload cs => exact checksumArm_legal hq b now

theorem byteStep_legal {c : Config} (hwf : c.wf = true) {q : ParserState} (hq : q.Legal c)
    (b : Byte) (now : U32) : (byteStep c q b now).1.Legal c := by
  cases hr : resyncs c q b with
  | true =>
    rw [byteStep_of_resyncs hr]
    simp [ParserState.Legal]
  | false =>
    rw [byteStep_of_not_resyncs hr]
    exact byteArm_legal hwf hq b now

/-! ## Counting keeps the counters within their width (10_state.md R29, R31) -/

theorem stats_zero_bounded (c : Config) : Stats.zero.Bounded c := by
  simp [Stats.Bounded, Stats.zero]

theorem countTimeout_bounded {s : State} (h : s.stats.Bounded s.cfg) :
    (countTimeout s).stats.Bounded s.cfg := by
  obtain ⟨hattempted, hvalid, hchecksum, hmalformed, -⟩ := h
  exact ⟨hattempted, hvalid, hchecksum, hmalformed, bump_lt _ _⟩

theorem countEvent_bounded {s : State} (h : s.stats.Bounded s.cfg) (e : Event) :
    (countEvent s e).stats.Bounded s.cfg := by
  obtain ⟨hattempted, hvalid, hchecksum, hmalformed, htimeouts⟩ := h
  cases e with
  | begin => exact ⟨bump_lt _ _, hvalid, hchecksum, hmalformed, htimeouts⟩
  | malformed => exact ⟨hattempted, hvalid, hchecksum, bump_lt _ _, htimeouts⟩
  | mismatch => exact ⟨hattempted, hvalid, bump_lt _ _, hmalformed, htimeouts⟩
  | frame f => exact ⟨hattempted, bump_lt _ _, hchecksum, hmalformed, htimeouts⟩

theorem countEvents_bounded (events : List Event) {s : State} (h : s.stats.Bounded s.cfg) :
    (events.foldl countEvent s).stats.Bounded s.cfg := by
  induction events generalizing s with
  | nil => exact h
  | cons e events ih => simpa using ih (s := countEvent s e) (by simpa using countEvent_bounded h e)

/-! ## Every step keeps the legal states -/

theorem inv_keptByOperations : KeptByOperations State.Inv where
  port _ _ _ h := h
  timeout now s h := by
    obtain ⟨heq, -⟩ | ⟨heq, -⟩ := timeoutCheck_cases now s
    · rwa [heq]
    · obtain ⟨hwf, -, hstats⟩ := h
      rw [heq]
      exact ⟨hwf, trivial, countTimeout_bounded hstats⟩
  byte now b s h := by
    obtain ⟨hwf, hparser, hstats⟩ := h
    refine ⟨by simpa using hwf, ?_, ?_⟩
    · simpa using byteStep_legal hwf hparser b now
    · rw [absorbByte_cfg]
      exact countEvents_bounded _ (s := setParser _ s) hstats
  reset s h := by
    obtain ⟨hwf, -, -⟩ := h
    exact ⟨hwf, trivial, stats_zero_bounded s.cfg⟩

/-- Settles O51: each operation keeps the invariant, the parser arm by arm. -/
theorem stepKeepsLegalState : Obligations.StepKeepsLegalState :=
  fun _ _ hs h => inv_keptByOperations.after_step hs h

/-! ## What a byte does to the attempt in progress -/

/-- A START's effect: an attempt begun and counted (43_parser.md R174). -/
def beginAttempt (now : U32) (s : State) : State :=
  countAttempted (setParser (.readingLength now []) s)

theorem ne_idle_of_resyncs {c : Config} {q : ParserState} {b : Byte}
    (hr : resyncs c q b = true) : q ≠ .idle := by
  rintro rfl
  simp [resyncs] at hr

theorem absorbByte_of_resyncs {s : State} {b : Byte} (hr : resyncs s.cfg s.parser b = true)
    (now : U32) : absorbByte now b s = beginAttempt now (countMalformed (goIdle s)) := by
  rw [absorbByte, byteStep_of_resyncs hr]
  rfl

theorem absorbByte_of_byteArm {s : State} {b : Byte} (hr : resyncs s.cfg s.parser b = false)
    {now : U32} {q : ParserState} {event : Option Event}
    (h : byteArm s.cfg s.parser b now = (q, event)) :
    absorbByte now b s = event.toList.foldl countEvent (setParser q s) := by
  rw [absorbByte, byteStep_of_not_resyncs hr, h]

/-- Everything a byte can do to the block: keep the attempt (or its absence) uncounted, begin one,
end it with one count, or end it as malformed and begin the next (43_parser.md R186). -/
theorem absorbByte_cases (now : U32) (b : Byte) (s : State) :
    (∃ q, (q = .idle ↔ s.parser = .idle) ∧ absorbByte now b s = setParser q s) ∨
    (s.parser = .idle ∧ absorbByte now b s = beginAttempt now s) ∨
    (s.parser ≠ .idle ∧ ∃ e, e ≠ .begin ∧ absorbByte now b s = countEvent (goIdle s) e) ∨
    (s.parser ≠ .idle ∧ absorbByte now b s = beginAttempt now (countMalformed (goIdle s))) := by
  cases hr : resyncs s.cfg s.parser b with
  | true => exact .inr (.inr (.inr ⟨ne_idle_of_resyncs hr, absorbByte_of_resyncs hr now⟩))
  | false =>
    have hends {e : Event} (h : byteArm s.cfg s.parser b now = (.idle, some e)) :
        absorbByte now b s = countEvent (goIdle s) e := absorbByte_of_byteArm hr h
    obtain ⟨q, heq, -, hiff⟩ | ⟨hidle, -, heq⟩ | ⟨hactive, heq⟩ |
      ⟨_, _, _, _, _, _, hq, ⟨-, heq⟩ | ⟨-, heq⟩⟩ := byteArm_cases s.cfg s.parser b now
    · exact .inl ⟨q, hiff, absorbByte_of_byteArm hr heq⟩
    · exact .inr (.inl ⟨hidle, absorbByte_of_byteArm hr heq⟩)
    · exact .inr (.inr (.inl ⟨hactive, _, by simp, hends heq⟩))
    · exact .inr (.inr (.inl ⟨by simp [hq], _, by simp, hends heq⟩))
    · exact .inr (.inr (.inl ⟨by simp [hq], _, by simp, hends heq⟩))

/-! ## The balance of the statistics (10_state.md R33) -/

/-- The attempts that have ended, each counted by the way it ended. -/
def Stats.ended (st : Stats) : Nat := st.valid + st.checksumErrors + st.malformed + st.timeouts

theorem balanced_iff {s : State} :
    s.Balanced ↔
      s.stats.attempted ≡ s.stats.ended + s.parser.inProgress [MOD 2 ^ s.cfg.counterWidth] :=
  Iff.rfl

theorem inProgress_of_ne_idle {q : ParserState} (h : q ≠ .idle) : q.inProgress = 1 := by
  cases q with
  | idle => exact absurd rfl h
  | _ => rfl

theorem inProgress_congr {q r : ParserState} (h : q = .idle ↔ r = .idle) :
    q.inProgress = r.inProgress := by
  by_cases hr : r = .idle
  · rw [hr, h.mpr hr]
  · rw [inProgress_of_ne_idle hr, inProgress_of_ne_idle (mt h.mp hr)]

theorem bump_modEq (c : Config) (n : Nat) : bump c n ≡ n + 1 [MOD 2 ^ c.counterWidth] :=
  Nat.mod_modEq _ _

/-- A sum of end counters in which one counter, `n` before, was advanced. -/
theorem ended_succ_of_bump {c : Config} {st st' : Stats} {n : Nat}
    (h : st'.ended + n = st.ended + bump c n) :
    st'.ended ≡ st.ended + 1 [MOD 2 ^ c.counterWidth] := by
  apply Nat.ModEq.add_right_cancel' n
  rw [h, Nat.add_assoc, Nat.add_comm 1 n]
  exact (bump_modEq c n).add_left _

theorem countTimeout_ended (s : State) :
    (countTimeout s).stats.ended ≡ s.stats.ended + 1 [MOD 2 ^ s.cfg.counterWidth] :=
  ended_succ_of_bump (n := s.stats.timeouts) (by simp [Stats.ended]; omega)

/-- Every event but a START's ends an attempt, and advances one end counter. -/
theorem countEvent_ended {e : Event} (he : e ≠ .begin) (s : State) :
    (countEvent s e).stats.ended ≡ s.stats.ended + 1 [MOD 2 ^ s.cfg.counterWidth] := by
  cases e with
  | begin => exact absurd rfl he
  | malformed =>
    exact ended_succ_of_bump (n := s.stats.malformed) (by simp [countEvent, Stats.ended]; omega)
  | mismatch =>
    exact ended_succ_of_bump (n := s.stats.checksumErrors)
      (by simp [countEvent, Stats.ended]; omega)
  | frame f =>
    exact ended_succ_of_bump (n := s.stats.valid) (by simp [countEvent, Stats.ended]; omega)

theorem countEvent_attempted {e : Event} (he : e ≠ .begin) (s : State) :
    (countEvent s e).stats.attempted = s.stats.attempted := by
  cases e with
  | begin => exact absurd rfl he
  | _ => rfl

/-- An attempt ends: it leaves `a` and one end counter takes it. -/
theorem balanced_of_attempt_ended {s t : State} (hs : s.Balanced) (hactive : s.parser ≠ .idle)
    (hcfg : t.cfg = s.cfg) (hidle : t.parser = .idle)
    (hattempted : t.stats.attempted = s.stats.attempted)
    (hended : t.stats.ended ≡ s.stats.ended + 1 [MOD 2 ^ s.cfg.counterWidth]) : t.Balanced := by
  rw [balanced_iff, inProgress_of_ne_idle hactive] at hs
  rw [balanced_iff, hcfg, hidle, hattempted]
  exact hs.trans hended.symm

theorem countEvent_goIdle_balanced {s : State} (hs : s.Balanced) (hactive : s.parser ≠ .idle)
    {e : Event} (he : e ≠ .begin) : (countEvent (goIdle s) e).Balanced :=
  balanced_of_attempt_ended hs hactive (by simp) (by simp) (countEvent_attempted he _)
    (countEvent_ended he _)

/-- An attempt begins: `attempted` and `a` both advance. -/
theorem beginAttempt_balanced {s : State} (hs : s.Balanced) (hidle : s.parser = .idle)
    (now : U32) : (beginAttempt now s).Balanced := by
  rw [balanced_iff, hidle] at hs
  exact (bump_modEq s.cfg s.stats.attempted).trans (hs.add_right 1)

theorem absorbByte_balanced {s : State} (hs : s.Balanced) (now : U32) (b : Byte) :
    (absorbByte now b s).Balanced := by
  obtain ⟨q, hiff, heq⟩ | ⟨hidle, heq⟩ | ⟨hactive, e, he, heq⟩ | ⟨hactive, heq⟩ :=
    absorbByte_cases now b s
  · rw [heq, balanced_iff, setParser_parser, inProgress_congr hiff]
    exact hs
  · rw [heq]
    exact beginAttempt_balanced hs hidle now
  · rw [heq]
    exact countEvent_goIdle_balanced hs hactive he
  · rw [heq]
    have hmalformed : (countMalformed (goIdle s)).Balanced :=
      countEvent_goIdle_balanced hs hactive (e := .malformed) (by simp)
    exact beginAttempt_balanced hmalformed rfl now

theorem balanced_of_zero {s : State} (hidle : s.parser = .idle) (hstats : s.stats = Stats.zero) :
    s.Balanced := by
  rw [balanced_iff, hidle, hstats]
  rfl

theorem balanced_keptByOperations : KeptByOperations State.Balanced where
  port _ _ _ h := h
  timeout now s h := by
    obtain ⟨heq, -⟩ | ⟨heq, start, hstart, -⟩ := timeoutCheck_cases now s
    · rwa [heq]
    · have hactive : s.parser ≠ .idle := fun hidle => by simp [hidle, ParserState.start?] at hstart
      rw [heq]
      exact balanced_of_attempt_ended h hactive rfl rfl rfl (countTimeout_ended s)
  byte now b _ h := absorbByte_balanced h now b
  reset _ _ := balanced_of_zero rfl rfl

/-- Settles O53: each operation keeps the balance; only a byte and the timeout check count. -/
theorem stepKeepsStatisticsBalanced : Obligations.StepKeepsStatisticsBalanced :=
  fun _ _ hs h => balanced_keptByOperations.after_step hs h

/-! ## The state after power-on -/

theorem powerOn_inv {c : Config} (hwf : c.wf = true) : (State.powerOn c).Inv :=
  ⟨hwf, trivial, stats_zero_bounded c⟩

theorem powerOn_balanced (c : Config) : (State.powerOn c).Balanced := balanced_of_zero rfl rfl

/-- Settles O52: power-on is `Idle` with every counter zero; the default configuration is one of
the well-formed ones. -/
theorem powerOnIsLegalAndBalanced : Obligations.PowerOnIsLegalAndBalanced :=
  have hdefault : Config.default.wf = true := by decide
  ⟨hdefault, powerOn_inv hdefault, powerOn_balanced _,
    fun c hwf => ⟨powerOn_inv hwf, powerOn_balanced c⟩⟩

end Sys2Proof.Machine
end

/-! # Proofs: time, atomic commands and pure commands (20_memory.md R52, R53, R61, R62) -/

section
namespace Sys2Proof.Machine

/-! ## Elapsed time -/

theorem elapsed_cast (c : Config) (start now : U32) :
    ((elapsed c start now : Nat) : Int) =
      ((now.toNat : Int) - (start.toNat : Int)) % ((2 ^ c.timeWidth : Nat) : Int) :=
  Int.toNat_of_nonneg (Int.emod_nonneg _ (by positivity))

/-- The elapsed time is the one value below `2^TIME_WIDTH` that differs from `now - start` by whole
turns of the clock. -/
theorem elapsed_eq_of_turns {c : Config} {start now : U32} {e : Nat} (turns : Int)
    (hlt : e < 2 ^ c.timeWidth)
    (h : (now.toNat : Int) - start.toNat = e + ((2 ^ c.timeWidth : Nat) : Int) * turns) :
    elapsed c start now = e := by
  zify
  rw [elapsed_cast, h, Int.add_mul_emod_self_left]
  exact Int.emod_eq_of_lt (by positivity) (by exact_mod_cast hlt)

/-- Settles O35: a later time is no whole turn away from its distance, an earlier one is one turn
short of it. -/
theorem elapsedIsModular : Obligations.ElapsedIsModular := by
  intro c start now
  refine ⟨elapsed_cast c start now, fun d _ hlater hlt => ?_, fun d hpos hlt hearlier => ?_⟩
  · exact elapsed_eq_of_turns 0 hlt (by omega)
  · exact elapsed_eq_of_turns (-1) (by omega) (by omega)

/-! ## The step of a command that decodes -/

/-- Settles O5: the block takes the first command presented, and it decodes. -/
theorem stepRunsDecodedCommand : Obligations.StepRunsDecodedCommand := by
  intro s bytes rest i hwf hpending hdecode
  have htake : takeCommand s = some (bytes, { s with pending := rest }) :=
    takeCommand_eq_some.mpr ⟨rest, hpending, rfl⟩
  rw [step, if_pos hwf, htake]
  simp only [hdecode]

/-! ## Pure commands read the configuration, and STATS the counters -/

/-- A pure command gives one answer in all states with the configuration of `s` and, for STATS, its
counters (20_memory.md R61). -/
theorem exec_pure_answer {i : Instr} (hpure : isPureCommand i = true) (s : State) :
    ∃ st fields, ∀ u : State, u.cfg = s.cfg → (i = .stats → u.stats = s.stats) →
      exec i u = .next (respond st fields u) := by
  cases i with
  | crc16 data =>
    exact ⟨.ok, beBytes 2 (crc16 s.cfg data).toNat, fun u hcfg _ => by
      simp only [exec, execCrc16, hcfg]⟩
  | escape data =>
    exact ⟨.ok, spanBytes 4 (escape s.cfg data), fun u hcfg _ => by
      simp only [exec, execEscape, hcfg]⟩
  | unescape data =>
    cases h : unescape s.cfg data with
    | none =>
      exact ⟨.malformedEscape, [], fun u hcfg _ => by
        simp only [exec, execUnescape, hcfg, h, raiseError]⟩
    | some out =>
      exact ⟨.ok, spanBytes 4 out, fun u hcfg _ => by simp only [exec, execUnescape, hcfg, h]⟩
  | encode typ payload =>
    cases h : frameEncode s.cfg typ payload with
    | error e =>
      exact ⟨encodeErrorStatus e, [], fun u hcfg _ => by
        simp only [exec, execEncode, hcfg, h, raiseError]⟩
    | ok wire =>
      exact ⟨.ok, spanBytes 4 wire, fun u hcfg _ => by simp only [exec, execEncode, hcfg, h]⟩
  | decode now buffer =>
    cases h : frameDecode s.cfg buffer now with
    | error e =>
      exact ⟨decodeErrorStatus e, [], fun u hcfg _ => by
        simp only [exec, execDecode, hcfg, h, raiseError]⟩
    | ok f =>
      exact ⟨.frame, frameBytes f, fun u hcfg _ => by simp only [exec, execDecode, hcfg, h]⟩
  | stats =>
    exact ⟨.ok, statsBytes s.stats, fun u _ hstats => by
      simp only [exec, execStats, hstats rfl]⟩
  | feed now b => cases hpure
  | tick now => cases hpure
  | reset => cases hpure

/-- Settles O49: both states have the one answer, and it is all that is written. -/
theorem pureCommandsWriteNothing : Obligations.PureCommandsWriteNothing := by
  intro i s t hpure ht
  obtain ⟨st, fields, hanswer⟩ := exec_pure_answer hpure s
  cases (hanswer s rfl fun _ => rfl).symm.trans ht
  refine ⟨rfl, fun s' t' hcfg hstats ht' => ?_⟩
  cases (hanswer s' hcfg hstats).symm.trans ht'
  rfl

/-! ## A FEED does not read the last response -/

theorem timeoutCheck_respond (now : U32) (st : Status) (fields : List Byte) (s : State) :
    timeoutCheck now (respond st fields s) = respond st fields (timeoutCheck now s) := by
  unfold timeoutCheck
  rw [respond_cfg, respond_parser]
  split <;> rfl

theorem countEvent_respond (st : Status) (fields : List Byte) (s : State) (e : Event) :
    countEvent (respond st fields s) e = respond st fields (countEvent s e) := by
  cases e <;> rfl

theorem absorbByte_respond (now : U32) (b : Byte) (st : Status) (fields : List Byte) (s : State) :
    absorbByte now b (respond st fields s) = respond st fields (absorbByte now b s) :=
  List.foldl_hom (l := (byteStep s.cfg s.parser b now).2)
    (init := setParser (byteStep s.cfg s.parser b now).1 s) (respond st fields)
    (countEvent_respond st fields)

theorem respondEvents_respond (events : List Event) (st : Status) (fields : List Byte)
    (s : State) : respondEvents events (respond st fields s) = respondEvents events s := by
  unfold respondEvents
  cases emitted events <;> rfl

/-- A FEED replaces the last response by its own and does the same whatever that was. -/
theorem exec_feed_respond (now : U32) (b : Byte) (st : Status) (fields : List Byte) (s : State) :
    exec (.feed now b) (respond st fields s) = exec (.feed now b) s := by
  simp only [exec, execFeed, timeoutCheck_respond, feedByte_eq_respondEvents, absorbByte_respond,
    respondEvents_respond, respond_cfg, respond_parser]

/-- Settles O50: the pure command leaves only a response, which the first FEED replaces. -/
theorem pureCommandsBetweenFeeds : Obligations.PureCommandsBetweenFeeds := by
  intro i s t hpure ht first later
  obtain ⟨st, fields, rfl⟩ := exec_pure_writes_response hpure ht
  simp only [List.map_cons, runSeries, exec_feed_respond]

end Sys2Proof.Machine
end

/-! # Proofs: the command port's encoding, both ways (30_encoding.md R77 to R89) -/

section
namespace Sys2Proof

/-! ## The opcode map -/

/-- The nine bytes of R79 are the legal opcodes, and no two opcodes share a byte. -/
theorem Opcode.ofByte_eq_some {b : Byte} {o : Opcode} : Opcode.ofByte b = some o ↔ b = o.byte := by
  constructor
  · have h : ∀ b : Byte, ∀ o ∈ Opcode.ofByte b, b = o.byte := by decide
    exact h b o
  · rintro rfl
    cases o <;> rfl

@[simp] theorem Opcode.ofByte_byte (o : Opcode) : Opcode.ofByte o.byte = some o :=
  Opcode.ofByte_eq_some.mpr rfl

theorem Opcode.byte_range (o : Opcode) : 0x01 ≤ o.byte.toNat ∧ o.byte.toNat ≤ 0x09 := by
  cases o <;> decide

theorem Opcode.ofByte_eq_none {b : Byte} (h : b.toNat = 0x00 ∨ 0x0A ≤ b.toNat) :
    Opcode.ofByte b = none := by
  rw [Option.eq_none_iff_forall_ne_some]
  intro o ho
  obtain rfl := Opcode.ofByte_eq_some.mp ho
  have := o.byte_range
  omega

/-! ## Decoding and encoding are inverse -/

theorem spanFits_iff {data : List Byte} : spanFits data = true ↔ data.length < 256 ^ 2 := by
  simp [spanFits]; omega

theorem typeFits_iff {typ : List Byte} : typeFits typ = true ↔ typ.length < 256 ^ 1 := by
  simp [typeFits]; omega

theorem takeSpan_spanBytes {w : Nat} {data : List Byte} (h : data.length < 256 ^ w)
    (rest : List Byte) : takeSpan w (spanBytes w data ++ rest) = some (data, rest) :=
  takeSpan_eq_some.mpr ⟨h, rfl⟩

theorem takeU32_beBytes (v : U32) (rest : List Byte) :
    takeU32 (beBytes 4 v.toNat ++ rest) = some (v, rest) :=
  takeU32_eq_some.mpr rfl

@[simp] theorem atEnd_nil (i : Instr) : atEnd i [] = some i := rfl

theorem decodeOperands_operandBytes {i : Instr} (h : i.WellFormed = true) :
    decodeOperands i.opcode (operandBytes i) = some i := by
  have span16 {data : List Byte} (hfits : spanFits data = true) :
      takeSpan 2 (spanBytes 2 data) = some (data, []) := by
    simpa using takeSpan_spanBytes (spanFits_iff.mp hfits) []
  cases i with
  | crc16 data => simp [decodeOperands, Instr.opcode, operandBytes, span16 h]
  | escape data => simp [decodeOperands, Instr.opcode, operandBytes, span16 h]
  | unescape data => simp [decodeOperands, Instr.opcode, operandBytes, span16 h]
  | encode typ payload =>
    obtain ⟨htyp, hpayload⟩ := Bool.and_eq_true_iff.mp h
    simp [decodeOperands, Instr.opcode, operandBytes, takeSpan_spanBytes (typeFits_iff.mp htyp),
      span16 hpayload]
  | decode now buffer =>
    simp [decodeOperands, Instr.opcode, operandBytes, takeU32_beBytes, span16 h]
  | feed now b => simp [decodeOperands, Instr.opcode, operandBytes, takeU32_beBytes]
  | tick now =>
    have hnow := takeU32_beBytes now []
    rw [List.append_nil] at hnow
    simp [decodeOperands, Instr.opcode, operandBytes, hnow]
  | stats => rfl
  | reset => rfl

/-- A command whose one operand is a span16. -/
theorem takeSpan_atEnd_eq_some {make : List Byte → Instr} {bs : List Byte} {i : Instr}
    (h : ((takeSpan 2 bs).bind fun (data, rest) => atEnd (make data) rest) = some i) :
    ∃ data, spanFits data = true ∧ bs = spanBytes 2 data ∧ i = make data := by
  obtain ⟨⟨data, rest⟩, hspan, hend⟩ := Option.bind_eq_some_iff.mp h
  obtain ⟨hfits, rfl⟩ := takeSpan_eq_some.mp hspan
  obtain ⟨rfl, rfl⟩ := atEnd_eq_some.mp hend
  exact ⟨data, spanFits_iff.mpr hfits, by simp, rfl⟩

theorem decodeOperands_eq_some {o : Opcode} {bs : List Byte} {i : Instr}
    (h : decodeOperands o bs = some i) :
    i.opcode = o ∧ i.WellFormed = true ∧ operandBytes i = bs := by
  cases o with
  | crc16 =>
    obtain ⟨data, hfits, rfl, rfl⟩ := takeSpan_atEnd_eq_some h
    exact ⟨rfl, hfits, rfl⟩
  | escape =>
    obtain ⟨data, hfits, rfl, rfl⟩ := takeSpan_atEnd_eq_some h
    exact ⟨rfl, hfits, rfl⟩
  | unescape =>
    obtain ⟨data, hfits, rfl, rfl⟩ := takeSpan_atEnd_eq_some h
    exact ⟨rfl, hfits, rfl⟩
  | encode =>
    obtain ⟨⟨typ, rest⟩, htyp, hpayload⟩ := Option.bind_eq_some_iff.mp h
    obtain ⟨htypfits, rfl⟩ := takeSpan_eq_some.mp htyp
    obtain ⟨payload, hfits, rfl, rfl⟩ := takeSpan_atEnd_eq_some hpayload
    exact ⟨rfl, Bool.and_eq_true_iff.mpr ⟨typeFits_iff.mpr htypfits, hfits⟩, rfl⟩
  | decode =>
    obtain ⟨⟨now, rest⟩, hnow, hbuffer⟩ := Option.bind_eq_some_iff.mp h
    obtain rfl := takeU32_eq_some.mp hnow
    obtain ⟨buffer, hfits, rfl, rfl⟩ := takeSpan_atEnd_eq_some hbuffer
    exact ⟨rfl, hfits, rfl⟩
  | feed =>
    obtain ⟨⟨now, rest⟩, hnow, hbyte⟩ := Option.bind_eq_some_iff.mp h
    obtain rfl := takeU32_eq_some.mp hnow
    cases rest with
    | nil => cases hbyte
    | cons b rest =>
      obtain ⟨rfl, rfl⟩ := atEnd_eq_some.mp hbyte
      exact ⟨rfl, rfl, rfl⟩
  | tick =>
    obtain ⟨⟨now, rest⟩, hnow, hend⟩ := Option.bind_eq_some_iff.mp h
    obtain rfl := takeU32_eq_some.mp hnow
    obtain ⟨rfl, rfl⟩ := atEnd_eq_some.mp hend
    exact ⟨rfl, rfl, by simp [operandBytes]⟩
  | stats =>
    obtain ⟨rfl, rfl⟩ := atEnd_eq_some.mp h
    exact ⟨rfl, rfl, rfl⟩
  | reset =>
    obtain ⟨rfl, rfl⟩ := atEnd_eq_some.mp h
    exact ⟨rfl, rfl, rfl⟩

theorem decodeCommand_of_ofByte_none {op : Byte} (h : Opcode.ofByte op = none)
    (operands : List Byte) : decodeCommand (op :: operands) = .error .illegalCommand := by
  simp only [decodeCommand, h]

theorem decodeCommand_byte (o : Opcode) (operands : List Byte) :
    decodeCommand (o.byte :: operands) =
      (decodeOperands o operands).elim (.error .malformedCommand) .ok := by
  simp only [decodeCommand, Opcode.ofByte_byte]
  cases decodeOperands o operands <;> rfl

/-- The decoder accepts exactly the encodings of well-formed commands, each as that command. -/
theorem decodeCommand_eq_ok {bytes : List Byte} {i : Instr} :
    decodeCommand bytes = .ok i ↔ i.WellFormed = true ∧ encodeCommand i = bytes := by
  constructor
  · intro h
    cases bytes with
    | nil => cases h
    | cons op operands =>
      cases ho : Opcode.ofByte op with
      | none => cases (decodeCommand_of_ofByte_none ho operands).symm.trans h
      | some o =>
        obtain rfl := Opcode.ofByte_eq_some.mp ho
        rw [decodeCommand_byte] at h
        cases hi : decodeOperands o operands with
        | none => simp [hi] at h
        | some j =>
          obtain rfl : j = i := by simpa [hi] using h
          obtain ⟨rfl, hwf, rfl⟩ := decodeOperands_eq_some hi
          exact ⟨hwf, rfl⟩
  · rintro ⟨hwf, rfl⟩
    rw [encodeCommand, decodeCommand_byte, decodeOperands_operandBytes hwf, Option.elim_some]

/-- Settles O10: the decoder takes off each field that the encoder puts on. -/
theorem decodeOfEncode : Obligations.DecodeOfEncode :=
  fun _ hwf => decodeCommand_eq_ok.mpr ⟨hwf, rfl⟩

/-- Settles O11: the fields the decoder takes off are the encoder's, and no byte is left. -/
theorem encodeOfDecode : Obligations.EncodeOfDecode :=
  fun _ _ => decodeCommand_eq_ok.mp

/-! ## The length that the opcode and the length fields give (R84, R85) -/

theorem commandLength_encodeCommand {i : Instr} (h : i.WellFormed = true) :
    commandLength (encodeCommand i) = some (encodeCommand i).length := by
  cases i with
  | crc16 data => exact Laws.EncodedLength.crc16 data h
  | escape data => exact Laws.EncodedLength.escape data h
  | unescape data => exact Laws.EncodedLength.unescape data h
  | encode typ payload => exact Laws.EncodedLength.encode typ payload h
  | decode now buffer => exact Laws.EncodedLength.decode now buffer h
  | feed now b => exact Laws.EncodedLength.feed now b h
  | tick now => exact Laws.EncodedLength.tick now h
  | stats => exact Laws.EncodedLength.stats h
  | reset => exact Laws.EncodedLength.reset h

/-- R85's length of a command with opcode `o`, its length fields read from the string. -/
def Opcode.totalLength (o : Opcode) (bytes : List Byte) : Nat :=
  match o with
  | .crc16 | .escape | .unescape => 3 + beNat [byteAt bytes 1, byteAt bytes 2]
  | .encode => 4 + (byteAt bytes 1).toNat +
      beNat [byteAt bytes ((byteAt bytes 1).toNat + 2), byteAt bytes ((byteAt bytes 1).toNat + 3)]
  | .decode => 7 + beNat [byteAt bytes 5, byteAt bytes 6]
  | .feed => 6
  | .tick => 5
  | .stats | .reset => 1

theorem commandLength_eq_some {bytes : List Byte} {n : Nat} :
    commandLength bytes = some n ↔
      ∃ o : Opcode, byteAt bytes 0 = o.byte ∧ o.totalLength bytes = n := by
  simp only [← Opcode.ofByte_eq_some]
  unfold commandLength
  cases Opcode.ofByte (byteAt bytes 0) with
  | none => simp
  | some o => cases o <;> simp [Opcode.totalLength, Nat.add_comm]

theorem exists_append_of_le_length {n : Nat} {bs : List Byte} (h : n ≤ bs.length) :
    ∃ field rest, bs = field ++ rest ∧ field.length = n :=
  ⟨bs.take n, bs.drop n, (List.take_append_drop n bs).symm, List.length_take_of_le h⟩

theorem takeSpan_append (len rest : List Byte) :
    takeSpan len.length (len ++ rest) = takeBytes (beNat len) rest := by
  simp only [takeSpan, takeBytes_append]

theorem takeU32_append {field : List Byte} (h : field.length = 4) (rest : List Byte) :
    takeU32 (field ++ rest) = some (BitVec.ofNat 32 (beNat field), rest) := by
  simp only [takeU32, ← h, takeBytes_append]

/-- A string as long as its first two bytes say is one whole span16. -/
theorem exists_takeSpan_of_length {bs : List Byte}
    (h : 2 + beNat [byteAt bs 0, byteAt bs 1] = bs.length) :
    ∃ data, takeSpan 2 bs = some (data, []) := by
  obtain ⟨len, data, rfl, hlen⟩ := exists_append_of_le_length (bs := bs) (n := 2) (by omega)
  obtain ⟨b0, b1, rfl⟩ := List.length_eq_two.mp hlen
  have hdata : data.length = beNat [b0, b1] := by
    have h : 2 + beNat [b0, b1] = data.length + 2 := h
    omega
  exact ⟨data, (takeSpan_append [b0, b1] data).trans
    (takeBytes_eq_some.mpr ⟨hdata, data.append_nil.symm⟩)⟩

/-- The same for a span16 that follows other operands. -/
theorem exists_takeSpan_after {before rest : List Byte} {n : Nat} (hn : before.length = n)
    (h : n + 2 + beNat [byteAt (before ++ rest) n, byteAt (before ++ rest) (n + 1)] =
      (before ++ rest).length) :
    ∃ data, takeSpan 2 rest = some (data, []) := by
  subst hn
  have h0 := Laws.EncodedLength.byteAt_append_length before rest 0
  rw [Nat.add_zero] at h0
  rw [h0, Laws.EncodedLength.byteAt_append_length, List.length_append] at h
  exact exists_takeSpan_of_length (by omega)

/-- The type code of an ENCODE ends one byte past the value of its one-byte length. -/
theorem exists_decodeOperands_encode {operands : List Byte} {t : Nat}
    (ht : (byteAt operands 0).toNat = t)
    (h : (t + 1) + 2 + beNat [byteAt operands (t + 1), byteAt operands (t + 1 + 1)] =
      operands.length) :
    ∃ i, decodeOperands .encode operands = some i := by
  obtain ⟨before, rest, rfl, hbefore⟩ :=
    exists_append_of_le_length (bs := operands) (n := t + 1) (by omega)
  obtain ⟨payload, hpayload⟩ := exists_takeSpan_after hbefore h
  obtain ⟨len, typ, rfl⟩ := List.exists_cons_of_length_eq_add_one hbefore
  have htyp : typ.length = beNat [len] := by
    have hlen : len.toNat = t := ht
    simpa [beNat_cons, hlen] using hbefore
  have hspan : takeSpan 1 (len :: (typ ++ rest)) = some (typ, rest) :=
    (takeSpan_append [len] (typ ++ rest)).trans (takeBytes_eq_some.mpr ⟨htyp, rfl⟩)
  exact ⟨.encode typ payload, by simp [decodeOperands, hspan, hpayload]⟩

/-- Operands as long as their length fields say are operands of a command. -/
theorem exists_decodeOperands {o : Opcode} {operands : List Byte}
    (h : o.totalLength (o.byte :: operands) = operands.length + 1) :
    ∃ i, decodeOperands o operands = some i := by
  have hspan16 (hlen : 3 + beNat [byteAt operands 0, byteAt operands 1] = operands.length + 1) :=
    exists_takeSpan_of_length (bs := operands) (by omega)
  cases o with
  | crc16 =>
    obtain ⟨data, hdata⟩ := hspan16 h
    exact ⟨.crc16 data, by simp [decodeOperands, hdata]⟩
  | escape =>
    obtain ⟨data, hdata⟩ := hspan16 h
    exact ⟨.escape data, by simp [decodeOperands, hdata]⟩
  | unescape =>
    obtain ⟨data, hdata⟩ := hspan16 h
    exact ⟨.unescape data, by simp [decodeOperands, hdata]⟩
  | encode =>
    have hlen : 4 + (byteAt operands 0).toNat + beNat [byteAt operands
        ((byteAt operands 0).toNat + 1), byteAt operands ((byteAt operands 0).toNat + 1 + 1)] =
        operands.length + 1 := h
    exact exists_decodeOperands_encode rfl (by omega)
  | decode =>
    have hlen : 7 + beNat [byteAt operands 4, byteAt operands (4 + 1)] = operands.length + 1 := h
    obtain ⟨now, rest, rfl, hnow⟩ :=
      exists_append_of_le_length (bs := operands) (n := 4) (by omega)
    obtain ⟨buffer, hbuffer⟩ := exists_takeSpan_after (rest := rest) hnow (by omega)
    exact ⟨.decode (BitVec.ofNat 32 (beNat now)) buffer,
      by simp [decodeOperands, takeU32_append hnow, hbuffer]⟩
  | feed =>
    have hlen : 6 = operands.length + 1 := h
    obtain ⟨now, rest, rfl, hnow⟩ :=
      exists_append_of_le_length (bs := operands) (n := 4) (by omega)
    rw [List.length_append] at hlen
    obtain ⟨b, rfl⟩ : ∃ b, rest = [b] := List.length_eq_one_iff.mp (by omega)
    exact ⟨.feed (BitVec.ofNat 32 (beNat now)) b, by simp [decodeOperands, takeU32_append hnow]⟩
  | tick =>
    have hlen : 5 = operands.length + 1 := h
    have hnow := takeU32_append (field := operands) (by omega) []
    rw [List.append_nil] at hnow
    exact ⟨.tick (BitVec.ofNat 32 (beNat operands)), by simp [decodeOperands, hnow]⟩
  | stats =>
    have hnil : operands = [] := by simpa [Opcode.totalLength] using h
    exact ⟨.stats, by simp [decodeOperands, hnil]⟩
  | reset =>
    have hnil : operands = [] := by simpa [Opcode.totalLength] using h
    exact ⟨.reset, by simp [decodeOperands, hnil]⟩

/-- A string that reads an opcode's byte at offset 0 is not empty: zero is no opcode. -/
theorem eq_cons_of_byteAt_zero {bytes : List Byte} {o : Opcode} (h : byteAt bytes 0 = o.byte) :
    ∃ operands, bytes = o.byte :: operands := by
  cases bytes with
  | nil => cases o <;> exact absurd h (by decide)
  | cons op operands =>
    obtain rfl : op = o.byte := h
    exact ⟨operands, rfl⟩

/-- Settles O9: an encoding has its length, and a string of its length has all its fields. -/
theorem acceptedExactlyAtItsLength : Obligations.AcceptedExactlyAtItsLength := by
  intro bytes
  constructor
  · rintro ⟨i, hi⟩
    obtain ⟨hwf, rfl⟩ := decodeCommand_eq_ok.mp hi
    exact commandLength_encodeCommand hwf
  · intro hlength
    obtain ⟨o, hbyte, htotal⟩ := commandLength_eq_some.mp hlength
    obtain ⟨operands, rfl⟩ := eq_cons_of_byteAt_zero hbyte
    obtain ⟨i, hi⟩ := exists_decodeOperands htotal
    exact ⟨i, by rw [decodeCommand_byte, hi, Option.elim_some]⟩

theorem decodeCommand_of_wrong_length {bytes : List Byte} {o : Opcode}
    (hbyte : byteAt bytes 0 = o.byte) (hlength : o.totalLength bytes ≠ bytes.length) :
    decodeCommand bytes = .error .malformedCommand := by
  have hrejected : ∀ i, decodeCommand bytes ≠ .ok i := fun i hi =>
    hlength (Option.some.inj ((commandLength_eq_some.mpr ⟨o, hbyte, rfl⟩).symm.trans
      ((acceptedExactlyAtItsLength bytes).mp ⟨i, hi⟩)))
  obtain ⟨operands, rfl⟩ := eq_cons_of_byteAt_zero hbyte
  rw [decodeCommand_byte] at hrejected ⊢
  cases hi : decodeOperands o operands with
  | none => rfl
  | some i => exact absurd (by rw [hi, Option.elim_some]) (hrejected i)

end Sys2Proof

namespace Sys2Proof.Machine

/-! ## Command-port errors (60_exceptions.md R246) -/

theorem step_of_decode_error {s : State} {bytes : List Byte} {rest : List (List Byte)}
    {e : CommandError} (hwf : s.cfg.wf = true) (hpending : s.pending = bytes :: rest)
    (hdecode : decodeCommand bytes = .error e) :
    step s = .next (raiseError (commandErrorStatus e) { s with pending := rest }) := by
  have htake : takeCommand s = some (bytes, { s with pending := rest }) :=
    takeCommand_eq_some.mpr ⟨rest, hpending, rfl⟩
  rw [step, if_pos hwf, htake]
  simp only [hdecode]

/-- Settles O7: no opcode of R79 has such a byte, so the operands are not looked at. -/
theorem illegalOpcodeAnsweredFF : Obligations.IllegalOpcodeAnsweredFF := by
  intro s op operands rest hwf hpending hop
  exact step_of_decode_error hwf hpending
    (decodeCommand_of_ofByte_none (Opcode.ofByte_eq_none hop) operands)

theorem beNat_pair (high low : Byte) : beNat [high, low] = high.toNat * 256 + low.toNat := by
  simp [beNat_cons]

/-- Settles O8: each clause names an opcode, and a length that is not the one R85 gives it. -/
theorem wrongLengthAnsweredFE : Obligations.WrongLengthAnsweredFE := by
  intro s bytes rest hwf hpending hwrong
  suffices hdecode : decodeCommand bytes = .error .malformedCommand from
    step_of_decode_error hwf hpending hdecode
  rcases hwrong with rfl | ⟨hop, hlen⟩ | ⟨hop, hlen⟩ | ⟨hop, hlen⟩ | ⟨hop, hlen⟩ | ⟨hop, hlen⟩ |
    ⟨hop, hlen⟩ | ⟨hop, hlen⟩
  · rfl
  · have htotal : 3 + beNat [byteAt bytes 1, byteAt bytes 2] ≠ bytes.length := by
      rw [beNat_pair]
      omega
    rcases hop with hop | hop | hop
    · exact decodeCommand_of_wrong_length (o := .crc16) hop htotal
    · exact decodeCommand_of_wrong_length (o := .escape) hop htotal
    · exact decodeCommand_of_wrong_length (o := .unescape) hop htotal
  · refine decodeCommand_of_wrong_length (o := .encode) hop ?_
    rw [Opcode.totalLength, beNat_pair, Nat.add_comm _ 2, Nat.add_comm _ 3]
    omega
  · refine decodeCommand_of_wrong_length (o := .decode) hop ?_
    rw [Opcode.totalLength, beNat_pair]
    omega
  · exact decodeCommand_of_wrong_length (o := .feed) hop hlen.symm
  · exact decodeCommand_of_wrong_length (o := .tick) hop hlen.symm
  · exact decodeCommand_of_wrong_length (o := .stats) hop hlen.symm
  · exact decodeCommand_of_wrong_length (o := .reset) hop hlen.symm

/-! ## Assembled commands (R87 to R89) -/

/-- Settles O12, row by row: the examples are closed values. -/
theorem exampleCommands : Obligations.ExampleCommands := by
  unfold Obligations.ExampleCommands
  decide +kernel

/-- Everything ENCODE can answer. -/
theorem exec_encode_cases {typ payload : List Byte} {s t : State}
    (h : exec (.encode typ payload) s = .next t) :
    (∃ e, frameEncode s.cfg typ payload = .error e ∧ t = raiseError (encodeErrorStatus e) s) ∨
    (∃ wire, frameEncode s.cfg typ payload = .ok wire ∧
      t = respond .ok (spanBytes 4 wire) s) := by
  simp only [exec, execEncode] at h
  split at h
  · rename_i e he
    cases h
    exact .inl ⟨e, he, rfl⟩
  · rename_i wire hwire
    cases h
    exact .inr ⟨wire, hwire, rfl⟩

theorem encodeErrorStatus_code_ne_zero (e : EncodeError) : (encodeErrorStatus e).code ≠ 0x00#8 := by
  cases e <;> decide

theorem spanBytes_injective {w : Nat} {a b : List Byte} (h : spanBytes w a = spanBytes w b) :
    a = b :=
  (List.append_inj h (by simp)).2

/-- Settles O13: FEEDS is a map; the response of the ENCODE tells its two outcomes apart, and a
frame from another. -/
theorem pseudoCommandsExpand : Obligations.PseudoCommandsExpand := by
  refine ⟨fun now data => ⟨List.length_map _, fun k b hb => by simp [feeds, hb]⟩, ?_⟩
  intro s t now typ payload hexec
  obtain ⟨e, hencode, rfl⟩ | ⟨wire, hencode, rfl⟩ := exec_encode_cases hexec
  · refine ⟨fun wire hresponse => ?_, fun _ _ _ => by simp only [feedWire, hencode]⟩
    obtain ⟨hcode, -⟩ := List.cons.inj (Option.some.inj hresponse)
    exact absurd hcode (encodeErrorStatus_code_ne_zero e)
  · refine ⟨fun wire' hresponse => ?_, fun code hcode hresponse => ?_⟩
    · obtain ⟨-, hspan⟩ := List.cons.inj (Option.some.inj hresponse)
      simp only [feedWire, hencode, spanBytes_injective hspan]
    · obtain ⟨hok, -⟩ := List.cons.inj (Option.some.inj hresponse)
      exact absurd hok.symm hcode

end Sys2Proof.Machine
end

/-! # Proofs: the wire frame that ENCODE produces (30_encoding.md R70 to R75) -/

section
namespace Sys2Proof.Machine

/-! ## Its length -/

/-- Settles O27: the budget bounds the content, and the frame adds R8's ten bytes to it. -/
theorem wireFrameFitsMaxFrameSize : Obligations.WireFrameFitsMaxFrameSize := by
  intro c typ payload wire hwf hencode
  obtain ⟨htyp, hbudget, rfl⟩ := frameEncode_eq_ok hencode
  obtain ⟨-, -, hsize, -⟩ := Config.wf_sizes hwf
  simp only [List.length_cons, List.length_append, length_dec3, length_hex4]
  omega

/-! ## Its bytes, one by one -/

/-- A reserved byte of an escaped payload is an ESC, and the byte after it is not reserved
(30_encoding.md R73). -/
theorem reserved_in_escape {c : Config} (hwf : c.wf = true) {payload : List Byte} {j : Nat}
    {b : Byte} (hb : (escape c payload)[j]? = some b) (hreserved : c.isReserved b = true) :
    b = c.escMarker ∧ ∃ b', (escape c payload)[j + 1]? = some b' ∧ c.isReserved b' = false := by
  induction payload generalizing j with
  | nil => simp at hb
  | cons x payload ih =>
    rw [escape_cons, escapeByte] at hb ⊢
    cases hx : c.isReserved x with
    | false =>
      rw [hx] at hb
      cases j with
      | zero =>
        obtain rfl : x = b := by simpa using hb
        rw [hx] at hreserved
        cases hreserved
      | succ j => exact ih hb
    | true =>
      obtain ⟨-, -, -, himage⟩ := Config.wf_markers hwf
      rw [hx] at hb
      match j, hb with
      | 0, hb => exact ⟨(Option.some.inj hb).symm, _, rfl, himage x hx⟩
      | 1, hb =>
        obtain rfl : x ^^^ escXor = b := Option.some.inj hb
        rw [himage x hx] at hreserved
        cases hreserved
      | j + 2, hb => exact ih hb

theorem isHeaderByte_of_isDigit {b : Byte} (h : isDigit b = true) : isHeaderByte b = true := by
  rw [isDigit_iff] at h
  simp [isHeaderByte, h]

theorem isHeaderByte_of_mem_dec3 {n : Nat} {b : Byte} (h : b ∈ dec3 n) : isHeaderByte b = true :=
  have ⟨_, hdigits⟩ := isLengthField_dec3 n
  isHeaderByte_of_isDigit (hdigits b h)

theorem isHeaderByte_of_mem_hex4 {v : U16} {b : Byte} (h : b ∈ hex4 v) :
    isHeaderByte b = true := by
  have := hex4_range h
  simp only [isHeaderByte, Bool.or_eq_true, Bool.and_eq_true, decide_eq_true_eq]
  exact .inl this

/-- The fields of an encoded frame: START, the eight bytes of length field, type and colons, the
escaped payload, END and the checksum field. -/
theorem frameEncode_fields {c : Config} {typ payload wire : List Byte}
    (h : frameEncode c typ payload = .ok wire) :
    ∃ head check, wire = c.startMarker :: (head ++ (escape c payload ++ c.endMarker :: check)) ∧
      head.length = 8 ∧
      (∀ k b, head[k]? = some b → ¬ (4 ≤ k ∧ k ≤ 6) → isHeaderByte b = true) ∧
      ∀ b ∈ check, isHeaderByte b = true := by
  obtain ⟨htyp, -, rfl⟩ := frameEncode_eq_ok h
  obtain ⟨t0, t1, t2, rfl⟩ := List.length_eq_three.mp htyp
  obtain ⟨d0, d1, d2, hdec⟩ :=
    List.length_eq_three.mp (length_dec3 (4 + (escape c payload).length))
  have hdigits : ∀ b ∈ [d0, d1, d2], isHeaderByte b = true :=
    fun _ hb => isHeaderByte_of_mem_dec3 (hdec ▸ hb)
  have hcolon : isHeaderByte colon = true := by decide
  rw [hdec]
  refine ⟨[d0, d1, d2, colon, t0, t1, t2, colon], _, rfl, rfl, fun k b hb hk => ?_,
    fun _ => isHeaderByte_of_mem_hex4⟩
  match k, hb with
  | 0, hb => exact hdigits b (List.mem_of_getElem? (i := 0) hb)
  | 1, hb => exact hdigits b (List.mem_of_getElem? (i := 1) hb)
  | 2, hb => exact hdigits b (List.mem_of_getElem? (i := 2) hb)
  | 3, rfl => exact hcolon
  | 4, _ | 5, _ | 6, _ => omega
  | 7, rfl => exact hcolon

/-- Where a reserved byte may stand in an encoded frame outside the type: START first, ESCs in the
escaped payload, END after it. -/
theorem reserved_in_wire {c : Config} (hwf : c.wf = true) {typ payload wire : List Byte}
    (hencode : frameEncode c typ payload = .ok wire) {k : Nat} {b : Byte} (hb : wire[k]? = some b)
    (hk : ¬ (5 ≤ k ∧ k ≤ 7)) (hreserved : c.isReserved b = true) :
    (k = 0 ∧ b = c.startMarker) ∨ (k = 9 + (escape c payload).length ∧ b = c.endMarker) ∨
      (9 ≤ k ∧ k < 9 + (escape c payload).length ∧ b = c.escMarker ∧
        ∃ b', wire[k + 1]? = some b' ∧ c.isReserved b' = false) := by
  obtain ⟨head, check, rfl, hlen, hhead, hcheck⟩ := frameEncode_fields hencode
  have hheader : ¬ isHeaderByte b = true := fun h => by
    rw [Config.wf_header hwf h] at hreserved
    cases hreserved
  have hafter (tail : List Byte) (j : Nat) :
      (c.startMarker :: (head ++ tail))[9 + j]? = tail[j]? := by
    rw [show 9 + j = head.length + j + 1 by omega, List.getElem?_cons_succ,
      List.getElem?_append_right (by omega), Nat.add_sub_cancel_left]
  obtain rfl | ⟨i, hi, rfl⟩ | ⟨j, rfl⟩ : k = 0 ∨ (∃ i < 8, k = i + 1) ∨ ∃ j, k = 9 + j := by
    by_cases h9 : 9 ≤ k
    · exact .inr (.inr (Nat.exists_eq_add_of_le h9))
    · cases k with
      | zero => exact .inl rfl
      | succ i => exact .inr (.inl ⟨i, by omega, rfl⟩)
  · exact .inl ⟨rfl, (Option.some.inj hb).symm⟩
  · rw [List.getElem?_cons_succ, List.getElem?_append_left (by omega)] at hb
    exact absurd (hhead i b hb (by omega)) hheader
  · rw [hafter] at hb
    obtain hj | rfl | hj := Nat.lt_trichotomy j (escape c payload).length
    · rw [List.getElem?_append_left hj] at hb
      obtain ⟨hesc, b', hb', hplain⟩ := reserved_in_escape hwf hb hreserved
      obtain ⟨hj', -⟩ := List.getElem?_eq_some_iff.mp hb'
      exact .inr (.inr ⟨by omega, by omega, hesc, b',
        by rw [Nat.add_assoc, hafter, List.getElem?_append_left hj', hb'], hplain⟩)
    · rw [List.getElem?_append_right le_rfl, Nat.sub_self] at hb
      exact .inr (.inl ⟨rfl, (Option.some.inj hb).symm⟩)
    · obtain ⟨d, hd⟩ := Nat.exists_eq_add_of_lt hj
      rw [hd, List.getElem?_append_right (by omega), Nat.add_assoc, Nat.add_sub_cancel_left,
        List.getElem?_cons_succ] at hb
      exact absurd (hcheck b (List.mem_of_getElem? hb)) hheader

/-- Settles O28: the markers are reserved and pairwise distinct. -/
theorem markersInWireFrame : Obligations.MarkersInWireFrame := by
  intro c typ payload wire hwf hencode k b hb hk
  obtain ⟨hse, hsx, hex, -⟩ := Config.wf_markers hwf
  have hplace := reserved_in_wire hwf hencode hb hk
  refine ⟨?_, ?_, ?_⟩
  · rintro rfl
    obtain ⟨hstart, -⟩ | ⟨-, hmark⟩ | ⟨-, -, hmark, -⟩ := hplace (isReserved_startMarker c)
    · exact hstart
    · exact absurd hmark hse
    · exact absurd hmark hsx
  · rintro rfl
    obtain ⟨-, hmark⟩ | ⟨hend, -⟩ | ⟨-, -, hmark, -⟩ := hplace (isReserved_endMarker c)
    · exact absurd hmark.symm hse
    · exact hend
    · exact absurd hmark hex
  · rintro rfl
    obtain ⟨-, hmark⟩ | ⟨-, hmark⟩ | ⟨hfrom, hto, -, hnext⟩ := hplace (isReserved_escMarker c)
    · exact absurd hmark.symm hsx
    · exact absurd hmark.symm hex
    · exact ⟨hfrom, hto, hnext⟩

end Sys2Proof.Machine
end

/-! # Proofs: the CRC engine (40_crc.md) -/

section
namespace Sys2Proof.Machine

/-! ## The register, shift by shift and byte by byte (R100) -/

theorem shiftLeft_one_eq_ofNat (r : U16) : r <<< 1 = BitVec.ofNat 16 (2 * r.toNat) := by
  apply BitVec.eq_of_toNat_eq
  simp
  omega

theorem zeroExtend_shiftLeft_eight (b : Byte) :
    b.zeroExtend 16 <<< 8 = BitVec.ofNat 16 (256 * b.toNat) := by
  apply BitVec.eq_of_toNat_eq
  simp
  omega

theorem crcShift_eq (c : Config) (r : U16) :
    crcShift c r = if r.getLsbD 15 = true then BitVec.ofNat 16 (2 * r.toNat) ^^^ c.crcPoly
      else BitVec.ofNat 16 (2 * r.toNat) := by
  rw [crcShift, shiftLeft_one_eq_ofNat]

theorem crcByte_eq (c : Config) (r : U16) (b : Byte) :
    crcByte c r b = crcShift8 c
      (r ^^^ BitVec.ofNat 16 (256 * (if c.crcRefin then reflect8 b else b).toNat)) := by
  rw [crcByte, zeroExtend_shiftLeft_eight]

theorem crcShift8_eq (c : Config) (r : U16) :
    crcShift8 c r = crcShift c (crcShift c (crcShift c (crcShift c (crcShift c (crcShift c
      (crcShift c (crcShift c r))))))) := rfl

theorem crcRegister_append_singleton (c : Config) (r : U16) (data : List Byte) (b : Byte) :
    crcRegister c r (data ++ [b]) = crcByte c (crcRegister c r data) b :=
  crcRegister_append c r data [b]

theorem crc16_of_not_refout {c : Config} (h : c.crcRefout = false) (data : List Byte) :
    crc16 c data = crcRegister c c.crcInit data ^^^ c.crcXorout := by
  simp [crc16, crcOutput, h]

theorem crc16_of_refout {c : Config} (h : c.crcRefout = true) (data : List Byte) :
    crc16 c data = reflect16 (crcRegister c c.crcInit data) ^^^ c.crcXorout := by
  simp [crc16, crcOutput, h]

/-- Settles O56: a byte is eight shifts behind its sum with the register. -/
theorem crc16RunsByteLoop : Obligations.Crc16RunsByteLoop := by
  intro c shift register
  have hshift : crcShift c = shift := funext (crcShift_eq c)
  have hbyte (data : List Byte) (b : Byte) : register (data ++ [b]) = crcShift8 c
      (register data ^^^ BitVec.ofNat 16 (256 * (if c.crcRefin then reflect8 b else b).toNat)) :=
    (crcRegister_append_singleton c c.crcInit data b).trans (crcByte_eq c _ b)
  rw [← hshift]
  refine ⟨rfl, fun data b => ⟨fun hin => ?_, fun hin => ?_⟩,
    fun data => ⟨fun hout => ?_, fun hout => ?_⟩⟩
  · rw [hbyte, hin, crcShift8_eq, if_neg Bool.false_ne_true]
  · rw [hbyte, hin, crcShift8_eq, if_pos rfl]
  · exact crc16_of_not_refout hout data
  · exact crc16_of_refout hout data

/-! ## Reflection (R101) -/

theorem getLsbD_reverse_sub {w : Nat} (v : BitVec w) {k : Nat} (hk : k < w) :
    v.reverse.getLsbD (w - 1 - k) = v.getLsbD k := by
  have hlt : w - 1 - k < w := by omega
  rw [BitVec.getLsbD_reverse, BitVec.getMsbD_eq_getLsbD, show w - 1 - (w - 1 - k) = k by omega]
  simp [hlt]

/-- Settles O19: both reflections reverse their word. -/
theorem reflectMovesBits : Obligations.ReflectMovesBits :=
  ⟨fun b _ hk => getLsbD_reverse_sub b hk, fun r _ hk => getLsbD_reverse_sub r hk⟩

/-! ## The CRC16 command (R103, R106) -/

theorem beBytes_two (v : U16) : beBytes 2 v.toNat = [v.extractLsb' 8 8, v.extractLsb' 0 8] := by
  simp [beBytes, BitVec.extractLsb', Nat.shiftRight_eq_div_pow]

/-- Settles O17: the answer is the checksum as a big-endian field. -/
theorem crc16AnswersChecksum : Obligations.Crc16AnswersChecksum := by
  intro data s
  rw [← beBytes_two]
  rfl

/-- Settles O18: the register of the empty span is `CRC_INIT`. -/
theorem crc16TotalAndEmpty : Obligations.Crc16TotalAndEmpty :=
  ⟨fun _ _ => ⟨_, _, rfl, rfl⟩,
    fun _ => ⟨fun hout => crc16_of_not_refout hout [], fun hout => crc16_of_refout hout []⟩⟩

/-! ## The tables (R107) -/

theorem crc16_eq_of_register {c : Config} {data : List Byte} {r v : U16}
    (hr : crcRegister c c.crcInit data = r) (hv : crcOutput c r = v) : crc16 c data = v := by
  rw [crc16, hr, hv]

/-- Settles O20, row by row: closed values. Where a row reflects its output, its register is
evaluated first: the kernel's recursion on a word that it has not yet evaluated goes too deep. -/
theorem crc16TableValues : Obligations.Crc16TableValues := by
  unfold Obligations.Crc16TableValues
  refine ⟨by decide +kernel, ?_⟩
  simp only [List.forall_mem_cons]
  refine ⟨?_, ?_, ?_, ?_, ?_, List.forall_mem_nil _⟩
  · decide +kernel
  · exact crc16_eq_of_register (r := reflect16 0xBB3D#16) (by decide +kernel) (by decide +kernel)
  · exact crc16_eq_of_register (r := reflect16 0x4B37#16) (by decide +kernel) (by decide +kernel)
  · exact crc16_eq_of_register (r := reflect16 0x2189#16) (by decide +kernel) (by decide +kernel)
  · exact crc16_eq_of_register (r := reflect16 (0x906E#16 ^^^ 0xFFFF#16))
      (by decide +kernel) (by decide +kernel)

/-! ## A single changed byte (R105) -/

theorem crcByte_injective_byte {c : Config} (hp : c.crcPoly.getLsbD 0 = true) {r : U16}
    {x y : Byte} (h : crcByte c r x = crcByte c r y) : x = y := by
  rw [crcByte_eq, crcByte_eq] at h
  have hword := congrArg BitVec.toNat ((BitVec.xor_right_inj _).mp (crcShift8_injective hp h))
  have hin : (if c.crcRefin then reflect8 x else x) = if c.crcRefin then reflect8 y else y := by
    apply BitVec.eq_of_toNat_eq
    simp only [BitVec.toNat_ofNat] at hword
    omega
  split at hin
  · exact reverse_injective hin
  · exact hin

theorem crcRegister_injective {c : Config} (hp : c.crcPoly.getLsbD 0 = true) {data : List Byte}
    {r r' : U16} (h : crcRegister c r data = crcRegister c r' data) : r = r' := by
  induction data generalizing r r' with
  | nil => exact h
  | cons b data ih => exact crcByte_injective_register hp (ih h)

theorem crcOutput_injective {c : Config} {r r' : U16} (h : crcOutput c r = crcOutput c r') :
    r = r' := by
  have hreg := (BitVec.xor_left_inj _).mp h
  split at hreg
  · exact reverse_injective hreg
  · exact hreg

/-- Settles O21: every stage behind the changed byte can be undone, back to that byte. -/
theorem singleByteChangeChangesChecksum : Obligations.SingleByteChangeChangesChecksum := by
  refine ⟨by decide, fun c before after x y hp hxy hcrc => hxy ?_⟩
  have hreg := crcOutput_injective hcrc
  rw [crcRegister_append, crcRegister_append, crcRegister_cons, crcRegister_cons] at hreg
  exact crcByte_injective_byte hp (crcRegister_injective hp hreg)

end Sys2Proof.Machine
end

/-! # Proofs: a frame fed to the parser byte by byte (43_parser.md R174 to R185) -/

section
namespace Sys2Proof.Machine

/-! ## A byte that causes no event -/

theorem byteStep_eq_nil_iff {c : Config} {q q' : ParserState} {b : Byte} {now : U32} :
    byteStep c q b now = (q', []) ↔
      resyncs c q b = false ∧ byteArm c q b now = (q', none) := by
  constructor
  · intro h
    have hr : resyncs c q b = false := by
      by_contra hr
      rw [byteStep_of_resyncs (Bool.eq_true_of_not_eq_false hr)] at h
      cases h
    rw [byteStep_of_not_resyncs hr] at h
    obtain ⟨hq, hevent⟩ := Prod.mk.inj h
    exact ⟨hr, Prod.ext hq (Option.toList_eq_nil_iff.mp hevent)⟩
  · rintro ⟨hr, harm⟩
    rw [byteStep_of_not_resyncs hr, harm]
    rfl

/-- A byte without an event leaves the time of the attempt's START as it is. -/
theorem byteStep_keeps_start {c : Config} {q q' : ParserState} {b : Byte} {now : U32}
    (h : byteStep c q b now = (q', [])) : q'.start? = q.start? := by
  obtain ⟨-, harm⟩ := byteStep_eq_nil_iff.mp h
  obtain ⟨q'', hq, hstart, -⟩ | ⟨-, -, hq⟩ | ⟨-, hq⟩ | ⟨_, _, _, _, _, _, -, ⟨-, hq⟩ | ⟨-, hq⟩⟩ :=
    byteArm_cases c q b now <;> cases harm.symm.trans hq
  exact hstart

/-- A byte without an event does the same at any time. -/
theorem byteStep_any_time {c : Config} {q q' : ParserState} {b : Byte} {now : U32}
    (h : byteStep c q b now = (q', [])) (now' : U32) : byteStep c q b now' = (q', []) := by
  obtain ⟨hr, harm⟩ := byteStep_eq_nil_iff.mp h
  refine byteStep_eq_nil_iff.mpr ⟨hr, ?_⟩
  cases q with
  | idle =>
    simp only [byteArm, idleArm] at harm ⊢
    split_ifs at harm ⊢
    · cases harm
    · exact harm
  | readingChecksum start lenDigits typ raw payload cs =>
    simp only [byteArm, checksumArm] at harm ⊢
    split_ifs at harm ⊢
    · exact harm
    · cases harm
    · cases harm
  | readingLength start lenDigits => exact harm
  | readingType start lenDigits typ => exact harm
  | readingPayload start lenDigits typ raw esc => exact harm

/-! ## Runs of bytes -/

theorem parseSpan_cons_quiet {c : Config} {now : U32} {q q' : ParserState} {b : Byte}
    {rest : List Byte} (h : byteStep c q b now = (q', [])) :
    parseSpan c now q (b :: rest) = parseSpan c now q' rest := by
  simp only [parseSpan, h, List.nil_append]

theorem parseSpan_cons_eq_nil_iff {c : Config} {now : U32} {q q' : ParserState} {b : Byte}
    {rest : List Byte} :
    parseSpan c now q (b :: rest) = (q', []) ↔
      ∃ q₁, byteStep c q b now = (q₁, []) ∧ parseSpan c now q₁ rest = (q', []) := by
  simp [parseSpan, Prod.ext_iff, and_left_comm]

theorem parseSpan_append_quiet {c : Config} {now : U32} {q q' : ParserState} {a b : List Byte}
    (h : parseSpan c now q a = (q', [])) :
    parseSpan c now q (a ++ b) = parseSpan c now q' b := by
  induction a generalizing q with
  | nil => cases h; rfl
  | cons x a ih =>
    obtain ⟨q₁, hx, ha⟩ := parseSpan_cons_eq_nil_iff.mp h
    rw [List.cons_append, parseSpan_cons_quiet hx, ih ha]

/-- A field of at most three bytes is collected byte by byte. -/
theorem parseSpan_collect {c : Config} {now : U32} {field : List Byte → ParserState}
    {bytes : List Byte} (hlen : bytes.length ≤ 3)
    (hstep : ∀ done, ∀ b ∈ bytes, done.length < 3 →
      byteStep c (field done) b now = (field (done ++ [b]), [])) :
    parseSpan c now (field []) bytes = (field bytes, []) := by
  suffices hfrom : ∀ done : List Byte, done.length + bytes.length ≤ 3 →
      parseSpan c now (field done) bytes = (field (done ++ bytes), []) from
    hfrom [] (by simpa using hlen)
  clear hlen
  induction bytes with
  | nil => simp [parseSpan]
  | cons b bytes ih =>
    intro done hlen
    rw [List.length_cons] at hlen
    have hrest := ih (fun done x hx => hstep done x (List.mem_cons_of_mem b hx)) (done ++ [b])
      (by rw [List.length_append, List.length_singleton]; omega)
    rw [parseSpan_cons_quiet (hstep done b List.mem_cons_self (by omega)), hrest,
      List.append_assoc, List.singleton_append]

/-! ## The fields of a frame -/

theorem startMarker_ne_of_header {c : Config} (hwf : c.wf = true) {b : Byte}
    (hb : isHeaderByte b = true) : b ≠ c.startMarker := by
  obtain ⟨hne, -⟩ := isReserved_eq_false_iff.mp (Config.wf_header hwf hb)
  exact hne

theorem byteStep_lengthDigit {c : Config} (hwf : c.wf = true) (start now : U32) {done : List Byte}
    {b : Byte} (hdigit : isDigit b = true) (hlen : done.length < 3) :
    byteStep c (.readingLength start done) b now = (.readingLength start (done ++ [b]), []) :=
  byteStep_eq_nil_iff.mpr
    ⟨resyncs_eq_false_of _ (.inr (startMarker_ne_of_header hwf (isHeaderByte_of_isDigit hdigit))),
      by simp [byteArm, lengthArm, hlen, hdigit]⟩

theorem byteStep_lengthColon {c : Config} (hwf : c.wf = true) (start now : U32)
    {lenDigits : List Byte} (hlen : lenDigits.length = 3) :
    byteStep c (.readingLength start lenDigits) colon now =
      (.readingType start lenDigits [], []) :=
  byteStep_eq_nil_iff.mpr
    ⟨resyncs_eq_false_of _ (.inr (startMarker_ne_of_header hwf (by decide))),
      by simp [byteArm, lengthArm, hlen]⟩

theorem byteStep_typeByte {c : Config} {b : Byte}
    (hr : c.resyncOnStart = false ∨ b ≠ c.startMarker) (start now : U32) (lenDigits : List Byte)
    {done : List Byte} (hlen : done.length < 3) :
    byteStep c (.readingType start lenDigits done) b now =
      (.readingType start lenDigits (done ++ [b]), []) :=
  byteStep_eq_nil_iff.mpr
    ⟨resyncs_eq_false_of _ hr, by simp [byteArm, typeArm, hlen]⟩

theorem byteStep_typeColon {c : Config} (hwf : c.wf = true) (start now : U32)
    (lenDigits : List Byte) {typ : List Byte} (htyp : typ.length = 3) :
    byteStep c (.readingType start lenDigits typ) colon now =
      (.readingPayload start lenDigits typ [] false, []) :=
  byteStep_eq_nil_iff.mpr
    ⟨resyncs_eq_false_of _ (.inr (startMarker_ne_of_header hwf (by decide))),
      by simp [byteArm, typeArm, htyp]⟩

theorem byteStep_payloadByte {c : Config} {start : U32} {lenDigits typ raw : List Byte}
    {esc : Bool} {b : Byte} (hstart : esc = true ∨ b ≠ c.startMarker)
    (hend : esc = true ∨ b ≠ c.endMarker) (hbudget : 4 + (raw.length + 1) ≤ c.payloadBudget)
    (now : U32) :
    byteStep c (.readingPayload start lenDigits typ raw esc) b now =
      (.readingPayload start lenDigits typ (raw ++ [b]) (escFlagNext c esc b), []) := by
  have hr : resyncs c (.readingPayload start lenDigits typ raw esc) b = false := by
    rcases hstart with hesc | hb
    · simp [resyncs, hesc]
    · exact resyncs_eq_false_of _ (.inr hb)
  have hkept : ¬ (esc = false ∧ b = c.endMarker) := by
    rintro ⟨hesc, hb⟩
    simp [hesc, hb] at hend
  have hfits : ¬ c.payloadBudget < 4 + (raw ++ [b]).length := by
    rw [List.length_append, List.length_singleton]
    omega
  refine byteStep_eq_nil_iff.mpr ⟨hr, ?_⟩
  rw [byteArm, payloadArm_eq, if_neg hkept, appendRaw, if_neg hfits]

theorem byteStep_payloadEnd {c : Config} (hwf : c.wf = true) {start : U32}
    {lenDigits typ raw payload : List Byte} (hlen : 4 + raw.length = decVal3 lenDigits)
    (hpayload : unescape c raw = some payload) (now : U32) :
    byteStep c (.readingPayload start lenDigits typ raw false) c.endMarker now =
      (.readingChecksum start lenDigits typ raw payload [], []) := by
  obtain ⟨hne, -⟩ := Config.wf_markers hwf
  exact byteStep_eq_nil_iff.mpr
    ⟨resyncs_eq_false_of _ (.inr hne.symm),
      by simp [byteArm, payloadArm, endPayload, hlen, hpayload]⟩

theorem byteStep_checksumByte {c : Config} {b : Byte}
    (hr : c.resyncOnStart = false ∨ b ≠ c.startMarker) (start now : U32)
    (lenDigits typ raw payload : List Byte) {done : List Byte} (hlen : done.length < 3) :
    byteStep c (.readingChecksum start lenDigits typ raw payload done) b now =
      (.readingChecksum start lenDigits typ raw payload (done ++ [b]), []) :=
  byteStep_eq_nil_iff.mpr
    ⟨resyncs_eq_false_of _ hr, by simp [byteArm, checksumArm, hlen]⟩

/-! ## An escaped payload -/

theorem escape_cons_plain {c : Config} {b : Byte} (hb : c.isReserved b = false)
    (payload : List Byte) : escape c (b :: payload) = b :: escape c payload := by
  simp [escape_cons, escapeByte, hb]

theorem escape_cons_reserved {c : Config} {b : Byte} (hb : c.isReserved b = true)
    (payload : List Byte) :
    escape c (b :: payload) = c.escMarker :: (b ^^^ escXor) :: escape c payload := by
  simp [escape_cons, escapeByte, hb]

theorem unescape_escape (c : Config) (payload : List Byte) :
    unescape c (escape c payload) = some payload := by
  induction payload with
  | nil => rfl
  | cons b payload ih =>
    cases hb : c.isReserved b with
    | false =>
      obtain ⟨-, -, hx⟩ := isReserved_eq_false_iff.mp hb
      rw [escape_cons_plain hb, unescape_plain hx, ih, Option.map_some]
    | true =>
      have himage : b ^^^ escXor ^^^ escXor = b := by simp
      rw [escape_cons_reserved hb, unescape_escMarker, ih, Option.map_some, himage]

/-- An escaped payload is received whole: a reserved byte arrives as an ESC and, behind the escape
flag that it sets, its image (30_encoding.md R73). -/
theorem parseSpan_escape {c : Config} (hwf : c.wf = true) (start now : U32)
    (lenDigits typ : List Byte) {payload raw : List Byte}
    (hbudget : 4 + (raw.length + (escape c payload).length) ≤ c.payloadBudget) :
    parseSpan c now (.readingPayload start lenDigits typ raw false) (escape c payload) =
      (.readingPayload start lenDigits typ (raw ++ escape c payload) false, []) := by
  obtain ⟨-, hsx, hex, -⟩ := Config.wf_markers hwf
  induction payload generalizing raw with
  | nil => simp [parseSpan]
  | cons b payload ih =>
    cases hb : c.isReserved b with
    | false =>
      obtain ⟨hs, he, hx⟩ := isReserved_eq_false_iff.mp hb
      have hclear : escFlagNext c false b = false := by simpa [escFlagNext] using hx
      rw [escape_cons_plain hb, List.length_cons] at hbudget
      rw [escape_cons_plain hb,
        parseSpan_cons_quiet (byteStep_payloadByte (.inr hs) (.inr he) (by omega) now), hclear,
        ih (by rw [List.length_append, List.length_singleton]; omega)]
      simp
    | true =>
      have hset : escFlagNext c false c.escMarker = true := by simp [escFlagNext]
      have hclear : escFlagNext c true (b ^^^ escXor) = false := rfl
      rw [escape_cons_reserved hb, List.length_cons, List.length_cons] at hbudget
      rw [escape_cons_reserved hb,
        parseSpan_cons_quiet (byteStep_payloadByte (.inr hsx.symm) (.inr hex.symm) (by omega) now),
        hset, parseSpan_cons_quiet (byteStep_payloadByte (.inl rfl) (.inl rfl)
          (by rw [List.length_append, List.length_singleton]; omega) now),
        hclear, ih (by simp only [List.length_append, List.length_singleton]; omega)]
      simp

/-! ## A whole frame -/

/-- The checksum of the frame of a type and a payload (40_crc.md R104). -/
def frameChecksum (c : Config) (typ payload : List Byte) : U16 :=
  crc16 c (checkedSpan (dec3 (4 + (escape c payload).length)) typ (escape c payload))

/-- The wire frame of a type and a payload with `check` in the place of its checksum field
(30_encoding.md R70). -/
def frameWith (c : Config) (typ payload check : List Byte) : List Byte :=
  c.startMarker :: (checkedSpan (dec3 (4 + (escape c payload).length)) typ (escape c payload) ++
    c.endMarker :: check)

theorem frameEncode_eq_frameWith {c : Config} {typ payload wire : List Byte}
    (h : frameEncode c typ payload = .ok wire) :
    typ.length = 3 ∧ 4 + (escape c payload).length ≤ c.payloadBudget ∧
      wire = frameWith c typ payload (hex4 (frameChecksum c typ payload)) :=
  frameEncode_eq_ok h

theorem frameWith_append (c : Config) (typ payload check rest : List Byte) :
    frameWith c typ payload (check ++ rest) = frameWith c typ payload check ++ rest := by
  simp [frameWith]

theorem checkedSpan_split (lenDigits before after raw : List Byte) (x : Byte) :
    checkedSpan lenDigits (before ++ x :: after) raw =
      (lenDigits ++ colon :: before) ++ x :: (after ++ colon :: raw) := by
  simp [checkedSpan]

/-- The type's bytes stand from offset 5 of a frame, behind START, the length field and a colon. -/
theorem frameWith_type_byte (c : Config) (before after payload check : List Byte) (x : Byte) :
    (frameWith c (before ++ x :: after) payload check)[5 + before.length]? = some x ∧
      ∀ y, (frameWith c (before ++ x :: after) payload check).set (5 + before.length) y =
        frameWith c (before ++ y :: after) payload check := by
  obtain ⟨pre, post, hlen, hsplit⟩ : ∃ pre post, pre.length = 5 + before.length ∧
      ∀ y, frameWith c (before ++ y :: after) payload check = pre ++ y :: post := by
    refine ⟨c.startMarker :: (dec3 (4 + (escape c payload).length) ++ colon :: before),
      after ++ colon :: escape c payload ++ c.endMarker :: check, ?_, fun y => ?_⟩
    · simp only [List.length_cons, List.length_append, length_dec3]
      omega
    · simp [frameWith, checkedSpan_split]
  rw [hsplit, ← hlen]
  exact ⟨by simp, fun y => by rw [hsplit]; simp⟩

/-- The checked span of a frame takes an attempt to its END. -/
theorem parseSpan_checkedSpan {c : Config} (hwf : c.wf = true) (start now : U32)
    {typ payload : List Byte} (htyp : typ.length = 3)
    (hr : c.resyncOnStart = false ∨ c.startMarker ∉ typ)
    (hbudget : 4 + (escape c payload).length ≤ c.payloadBudget) (n : Nat) :
    parseSpan c now (.readingLength start []) (checkedSpan (dec3 n) typ (escape c payload)) =
      (.readingPayload start (dec3 n) typ (escape c payload) false, []) := by
  obtain ⟨hlen, hdigits⟩ := isLengthField_dec3 n
  have hlength := parseSpan_collect (field := ParserState.readingLength start) hlen.le
    fun _ b hb hdone => byteStep_lengthDigit hwf start now (hdigits b hb) hdone
  have htype := parseSpan_collect (field := ParserState.readingType start (dec3 n)) htyp.le
    fun _ b hb hdone => byteStep_typeByte (hr.imp_right fun hs => ne_of_mem_of_not_mem hb hs)
      start now _ hdone
  rw [checkedSpan, List.append_assoc, parseSpan_append_quiet hlength, List.cons_append,
    parseSpan_cons_quiet (byteStep_lengthColon hwf start now hlen), parseSpan_append_quiet htype,
    parseSpan_cons_quiet (byteStep_typeColon hwf start now _ htyp)]
  exact parseSpan_escape hwf start now _ _ (by simpa using hbudget)

/-- Behind START, a frame short of its last byte takes an attempt to that byte. -/
theorem parseSpan_to_last_byte {c : Config} (hwf : c.wf = true) (start now : U32)
    {typ payload check : List Byte} (htyp : typ.length = 3)
    (hr : c.resyncOnStart = false ∨ c.startMarker ∉ typ ++ check)
    (hbudget : 4 + (escape c payload).length ≤ c.payloadBudget) (hcheck : check.length = 3) :
    let lenDigits := dec3 (4 + (escape c payload).length)
    parseSpan c now (.readingLength start []) (frameWith c typ payload check).tail =
      (.readingChecksum start lenDigits typ (escape c payload) payload check, []) := by
  intro lenDigits
  obtain ⟨-, hmax, hsize, -⟩ := Config.wf_sizes hwf
  have hrtyp := hr.imp_right fun hs => fun h => hs (List.mem_append_left check h)
  have hrcheck := hr.imp_right fun hs => fun h => hs (List.mem_append_right typ h)
  have hend := byteStep_payloadEnd hwf (start := start) (typ := typ) (lenDigits := lenDigits)
    (decVal3_dec3 (by omega)).symm (unescape_escape c payload) now
  rw [frameWith, List.tail_cons,
    parseSpan_append_quiet (parseSpan_checkedSpan hwf start now htyp hrtyp hbudget _),
    parseSpan_cons_quiet hend]
  exact parseSpan_collect hcheck.le fun _ b hb hdone =>
    byteStep_checksumByte (hrcheck.imp_right fun hs => ne_of_mem_of_not_mem hb hs) start now _ _ _ _
      hdone

/-! ## Series of FEEDs -/

theorem runSeries_cons {s t : State} {i : Instr} (h : exec i s = .next t) (rest : List Instr) :
    runSeries s (i :: rest) =
      (runSeries t rest).map fun r => (r.1, t.response.getD [] :: r.2) := by
  simp only [runSeries, h]

theorem runSeries_append {s t : State} {is : List Instr} {answers : List (List Byte)}
    (h : runSeries s is = some (t, answers)) (rest : List Instr) :
    runSeries s (is ++ rest) = (runSeries t rest).map fun r => (r.1, answers ++ r.2) := by
  induction is generalizing s answers with
  | nil =>
    cases h
    simp
  | cons i is ih =>
    obtain ⟨u, hu, -⟩ := exec_answers i s
    rw [runSeries_cons hu, Option.map_eq_some_iff] at h
    obtain ⟨⟨t', answers'⟩, htail, heq⟩ := h
    cases heq
    rw [List.cons_append, runSeries_cons hu, ih htail, Option.map_map]
    rfl

theorem feeds_cons (now : U32) (b : Byte) (data : List Byte) :
    feeds now (b :: data) = .feed now b :: feeds now data := rfl

theorem feeds_append (now : U32) (a b : List Byte) :
    feeds now (a ++ b) = feeds now a ++ feeds now b := List.map_append

theorem feeds_eq_zipWith (now : U32) (data : List Byte) :
    feeds now data = List.zipWith Instr.feed (List.replicate data.length now) data := by
  induction data with
  | nil => rfl
  | cons b data ih => rw [feeds_cons, ih]; rfl

theorem elapsed_self (c : Config) (now : U32) : elapsed c now now = 0 := by
  simp [elapsed]

theorem exec_feed_of_in_time {s : State} {start now : U32} (hstart : s.parser.start? = some start)
    (ht : elapsed s.cfg start now ≤ s.cfg.timeoutMs.toNat) (b : Byte) :
    exec (.feed now b) s = .next (feedByte now b s) := by
  simp only [exec, execFeed, timeoutCheck_of_in_time hstart ht]

theorem feedByte_quiet {s : State} {now : U32} {b : Byte} {q : ParserState}
    (h : byteStep s.cfg s.parser b now = (q, [])) :
    feedByte now b s = respond .ok [] (setParser q s) := by
  simp only [feedByte, h]
  rfl

/-- FEEDs in time of bytes that cause no event answer OK and move the parser alone. -/
theorem runSeries_feeds_quiet {s : State} {start now : U32} {times : List U32}
    {bytes : List Byte} {q : ParserState} (hstart : s.parser.start? = some start)
    (hlen : times.length = bytes.length)
    (htimes : ∀ t ∈ times, elapsed s.cfg start t ≤ s.cfg.timeoutMs.toNat)
    (h : parseSpan s.cfg now s.parser bytes = (q, [])) :
    runSeries (respond .ok [] s) (List.zipWith Instr.feed times bytes) =
      some (respond .ok [] (setParser q s), List.replicate bytes.length [0x00#8]) := by
  induction bytes generalizing s times with
  | nil =>
    cases h
    simp only [List.zipWith_nil_right]
    rfl
  | cons b bytes ih =>
    obtain ⟨t, times, rfl⟩ := List.exists_cons_of_length_eq_add_one hlen
    obtain ⟨htime, htimes⟩ := List.forall_mem_cons.mp htimes
    obtain ⟨q₁, hb, hrest⟩ := parseSpan_cons_eq_nil_iff.mp h
    have hexec : exec (.feed t b) (respond .ok [] s) = .next (respond .ok [] (setParser q₁ s)) := by
      rw [exec_feed_respond, exec_feed_of_in_time hstart htime,
        feedByte_quiet (byteStep_any_time hb t)]
    rw [List.zipWith_cons_cons, runSeries_cons hexec,
      ih (s := setParser q₁ s) ((byteStep_keeps_start hb).trans hstart) (Nat.succ.inj hlen) htimes
        hrest]
    rfl

theorem exec_feed_start {s : State} (hidle : s.parser = .idle) (now : U32) :
    exec (.feed now s.cfg.startMarker) s = .next (respond .ok [] (beginAttempt now s)) := by
  simp only [exec, execFeed, timeoutCheck_of_idle now hidle, feedByte_eq_respondEvents, absorbByte]
  simp [hidle, byteStep, resyncs, byteArm, idleArm, countEvent, respondEvents, emitted,
    beginAttempt]

theorem goIdle_of_idle {s : State} (h : s.parser = .idle) : goIdle s = s := by
  cases s
  cases h
  rfl

/-- From `Idle`, a frame short of its last byte, fed at one timestamp, begins an attempt and takes
it to that byte. -/
theorem runSeries_feeds_to_last_byte {s : State} {typ payload check : List Byte} (now : U32)
    (hwf : s.cfg.wf = true) (hidle : s.parser = .idle) (hr : s.cfg.resyncOnStart = false)
    (htyp : typ.length = 3) (hbudget : 4 + (escape s.cfg payload).length ≤ s.cfg.payloadBudget)
    (hcheck : check.length = 3) :
    runSeries s (feeds now (frameWith s.cfg typ payload check)) =
      some (respond .ok [] (setParser (.readingChecksum now
          (dec3 (4 + (escape s.cfg payload).length)) typ (escape s.cfg payload) payload check)
          (countAttempted s)),
        List.replicate (frameWith s.cfg typ payload check).length [0x00#8]) := by
  have hintime : ∀ t ∈ List.replicate (frameWith s.cfg typ payload check).tail.length now,
      elapsed s.cfg now t ≤ s.cfg.timeoutMs.toNat := fun t ht => by
    rw [List.eq_of_mem_replicate ht, elapsed_self]
    exact Nat.zero_le _
  have hrun := runSeries_feeds_quiet (s := beginAttempt now s) (start := now) rfl
    List.length_replicate hintime (parseSpan_to_last_byte hwf now now htyp (.inl hr) hbudget hcheck)
  rw [← feeds_eq_zipWith, frameWith, List.tail_cons] at hrun
  rw [frameWith, feeds_cons, runSeries_cons (exec_feed_start hidle now), hrun]
  rfl

/-- The last byte of a checksum field that does not match (43_parser.md R185). -/
theorem exec_feed_mismatch {s : State} {start now : U32}
    {lenDigits typ raw payload check : List Byte} {last : Byte}
    (ht : elapsed s.cfg start now ≤ s.cfg.timeoutMs.toNat)
    (hr : s.cfg.resyncOnStart = false ∨ last ≠ s.cfg.startMarker) (hlen : check.length = 3)
    (hne : check ++ [last] ≠ hex4 (crc16 s.cfg (checkedSpan lenDigits typ raw))) :
    exec (.feed now last)
        (setParser (.readingChecksum start lenDigits typ raw payload check) s) =
      .next (respond .ok [] (countChecksumError (goIdle s))) := by
  generalize hq : ParserState.readingChecksum start lenDigits typ raw payload check = q
  have hstart : (setParser q s).parser.start? = some start := by rw [← hq]; rfl
  have harm : byteArm s.cfg q last now = (.idle, some .mismatch) := by
    simp [← hq, byteArm, checksumArm, hlen, hne]
  rw [exec_feed_of_in_time hstart ht, feedByte, setParser_cfg, setParser_parser,
    byteStep_of_not_resyncs (resyncs_eq_false_of q hr), harm]
  rfl

/-- From `Idle`, a frame whose checksum field does not match, fed at one timestamp, is one attempt
and one checksum error. -/
theorem runSeries_feeds_mismatch {s : State} {typ payload check : List Byte} (now : U32)
    (hwf : s.cfg.wf = true) (hidle : s.parser = .idle) (hr : s.cfg.resyncOnStart = false)
    (htyp : typ.length = 3) (hbudget : 4 + (escape s.cfg payload).length ≤ s.cfg.payloadBudget)
    (hcheck : check.length = 4) (hne : check ≠ hex4 (frameChecksum s.cfg typ payload)) :
    runSeries s (feeds now (frameWith s.cfg typ payload check)) =
      some (respond .ok [] (countChecksumError (countAttempted s)),
        List.replicate (frameWith s.cfg typ payload check).length [0x00#8]) := by
  obtain ⟨field, rest, rfl, hfield⟩ : ∃ field rest, check = field ++ rest ∧ field.length = 3 :=
    exists_append_of_le_length (by omega)
  obtain ⟨last, rfl⟩ : ∃ last, rest = [last] := by
    rw [List.length_append] at hcheck
    exact List.length_eq_one_iff.mp (by omega)
  have hrun := runSeries_feeds_to_last_byte now hwf hidle hr htyp hbudget hfield
  have hlast := (exec_feed_respond now last .ok [] _).trans (exec_feed_mismatch
    (s := countAttempted s) (start := now) (payload := payload)
    ((elapsed_self _ _).trans_le (Nat.zero_le _)) (.inl hr) hfield hne)
  have hidle' : goIdle (countAttempted s) = countAttempted s := goIdle_of_idle hidle
  rw [frameWith_append, feeds_append, runSeries_append hrun, feeds_cons, runSeries_cons hlast,
    hidle', List.length_append, List.replicate_add]
  rfl

/-- Settles O55: the changed frame is the frame of another type with the checksum field of the
first, and the two types differ in one byte, so their checksums differ (O21). -/
theorem changedTypeByteIsMismatch : Obligations.ChangedTypeByteIsMismatch := by
  intro s typ payload wire k b now hwf hpoly hidle hresync hencode hfrom hto hb
  obtain ⟨htyp, hbudget, rfl⟩ := frameEncode_eq_frameWith hencode
  obtain ⟨j, rfl⟩ := Nat.exists_eq_add_of_le hfrom
  obtain ⟨before, rest, rfl, rfl⟩ : ∃ before rest, typ = before ++ rest ∧ before.length = j :=
    exists_append_of_le_length (by omega)
  obtain ⟨x, after, rfl⟩ : ∃ x after, rest = x :: after :=
    List.exists_cons_of_length_pos (by rw [List.length_append] at htyp; omega)
  obtain ⟨hx, hset⟩ := frameWith_type_byte s.cfg before after payload
    (hex4 (frameChecksum s.cfg (before ++ x :: after) payload)) x
  have hxb : x ≠ b := fun h => hb (h ▸ hx)
  have hcrc : frameChecksum s.cfg (before ++ x :: after) payload ≠
      frameChecksum s.cfg (before ++ b :: after) payload := by
    obtain ⟨-, hchanges⟩ := singleByteChangeChangesChecksum
    simp only [frameChecksum, checkedSpan_split]
    exact hchanges s.cfg _ _ x b hpoly hxb
  have hrun := runSeries_feeds_mismatch (typ := before ++ b :: after) now hwf hidle hresync
    (by simpa using htyp) hbudget (length_hex4 _) (fun h => hcrc (hex4_injective h))
  rw [← hset, List.length_set] at hrun
  exact hrun

end Sys2Proof.Machine
end

/-! # Proofs: the Escape Codec (41_escape.md R120 to R125) -/

section
namespace Sys2Proof.Machine

/-! ## The five properties (R123) -/

/-- No reserved byte but ESC stands in an escaped span. -/
theorem not_mem_escape {c : Config} (hwf : c.wf = true) {m : Byte}
    (hreserved : c.isReserved m = true) (hne : m ≠ c.escMarker) (x : List Byte) : m ∉ escape c x := by
  intro hmem
  obtain ⟨_, hk⟩ := List.mem_iff_getElem?.mp hmem
  obtain ⟨hesc, -⟩ := reserved_in_escape hwf hk hreserved
  exact hne hesc

/-- Each reserved byte costs one byte more. -/
theorem length_escape (c : Config) (x : List Byte) :
    (escape c x).length = x.length + x.countP c.isReserved := by
  induction x with
  | nil => rfl
  | cons b x ih =>
    cases hb : c.isReserved b with
    | false =>
      rw [escape_cons_plain hb, List.countP_cons_of_neg (by simp [hb])]
      simp only [List.length_cons]
      omega
    | true =>
      rw [escape_cons_reserved hb, List.countP_cons_of_pos hb]
      simp only [List.length_cons]
      omega

/-- Unescaping fails exactly on an ESC left unpaired at the end (10_state.md R26). -/
theorem unescape_eq_none_iff (c : Config) (d : List Byte) :
    unescape c d = none ↔ escFlag c d = true := by
  induction d using unescape.induct c with
  | case1 => simp
  | case2 => simp [unescape, escFlag, escFlagNext]
  | case3 b hb => simp [unescape_plain hb, escFlag_plain hb]
  | case4 x rest ih => rw [unescape_escMarker, Option.map_eq_none_iff, escFlag_escMarker, ih]
  | case5 b x rest hb ih => rw [unescape_plain hb, Option.map_eq_none_iff, escFlag_plain hb, ih]

/-- Settles O24, item by item; item 4 is R123's example, evaluated. -/
theorem escapeProperties : Obligations.EscapeProperties := by
  refine ⟨unescape_escape, fun c x hwf => ?_, fun c x => ⟨length_escape c x, ?_⟩, by decide,
    unescape_eq_none_iff⟩
  · obtain ⟨-, hstart, hend, -⟩ := Config.wf_markers hwf
    refine ⟨not_mem_escape hwf (isReserved_startMarker c) hstart x,
      not_mem_escape hwf (isReserved_endMarker c) hend x, fun k hk => ?_⟩
    obtain ⟨-, hnext⟩ := reserved_in_escape hwf hk (isReserved_escMarker c)
    exact hnext
  · have hcount : x.countP c.isReserved ≤ x.length := List.countP_le_length
    rw [length_escape]
    omega

/-! ## Pairs and plain bytes (R122) -/

/-- Settles O25: one step of `unescape` over a pair, and one over a plain byte. -/
theorem unescapeAcceptsEveryPair : Obligations.UnescapeAcceptsEveryPair := by
  intro c rest out h
  refine ⟨fun x => ?_, fun b hb => ?_⟩
  · rw [unescape_escMarker, h, Option.map_some, escXor]
  · rw [unescape_plain hb, h, Option.map_some]

/-! ## The commands (R124, R125) -/

/-- Settles O22: the answer is the escaped span behind its length. -/
theorem escapeAnswersStuffedSpan : Obligations.EscapeAnswersStuffedSpan :=
  fun _ _ => rfl

/-- What UNESCAPE answers to a span that unescapes (R125). -/
theorem exec_unescape_of_some {data out : List Byte} {s : State}
    (h : unescape s.cfg data = some out) :
    exec (.unescape data) s = .next (respond .ok (spanBytes 4 out) s) := by
  simp only [exec, execUnescape, h]

/-- What UNESCAPE answers where an ESC is left unpaired (60_exceptions.md R244). -/
theorem exec_unescape_of_none {data : List Byte} {s : State} (h : unescape s.cfg data = none) :
    exec (.unescape data) s = .next (raiseError .malformedEscape s) := by
  simp only [exec, execUnescape, h]

/-- Settles O23, by what unescaping the span gives. -/
theorem unescapeAnswersSpanOrError : Obligations.UnescapeAnswersSpanOrError :=
  fun _ _ => ⟨fun _ h => exec_unescape_of_some h, exec_unescape_of_none⟩

end Sys2Proof.Machine
end

/-! # Proofs: the Frame Codec (42_frame_codec.md R140 to R146) -/

section
namespace Sys2Proof.Machine

/-! ## ENCODE (R140 to R142) -/

theorem length_contentOf {typ : List Byte} (htyp : typ.length = 3) (escaped : List Byte) :
    (contentOf typ escaped).length = 4 + escaped.length := by
  rw [contentOf, List.length_append, List.length_cons, htyp]
  omega

theorem frameEncode_of_invalid_type {c : Config} {typ : List Byte} (htyp : typ.length ≠ 3)
    (payload : List Byte) : frameEncode c typ payload = .error .invalidType :=
  if_pos htyp

theorem frameEncode_of_over_budget {c : Config} {typ payload : List Byte} (htyp : typ.length = 3)
    (hbudget : c.payloadBudget < 4 + (escape c payload).length) :
    frameEncode c typ payload = .error .payloadTooLarge := by
  simp [frameEncode, htyp, length_contentOf htyp, hbudget]

/-- The converse of `frameEncode_eq_frameWith`. -/
theorem frameEncode_of_fits {c : Config} {typ payload : List Byte} (htyp : typ.length = 3)
    (hbudget : 4 + (escape c payload).length ≤ c.payloadBudget) :
    frameEncode c typ payload = .ok (frameWith c typ payload
      (hex4 (frameChecksum c typ payload))) := by
  have hencode : frameEncode c typ payload =
      .ok (wireFrame c (contentOf typ (escape c payload))) := by
    simp [frameEncode, htyp, length_contentOf htyp, hbudget]
  obtain ⟨-, -, hwire⟩ := frameEncode_eq_frameWith hencode
  rw [hencode, hwire]

theorem exec_encode_of_error {typ payload : List Byte} {s : State} {e : EncodeError}
    (h : frameEncode s.cfg typ payload = .error e) :
    exec (.encode typ payload) s = .next (raiseError (encodeErrorStatus e) s) := by
  simp only [exec, execEncode, h]

theorem exec_encode_of_ok {typ payload wire : List Byte} {s : State}
    (h : frameEncode s.cfg typ payload = .ok wire) :
    exec (.encode typ payload) s = .next (respond .ok (spanBytes 4 wire) s) := by
  simp only [exec, execEncode, h]

/-- The checked span as the statements write it, field by field (30_encoding.md R72). -/
theorem checkedSpan_eq_fields (lenDigits typ raw : List Byte) :
    checkedSpan lenDigits typ raw = lenDigits ++ [0x3A#8] ++ typ ++ [0x3A#8] ++ raw := by
  simp [checkedSpan, colon]

/-- Settles O26, check by check in R140's order. -/
theorem encodeAnswersWireFrame : Obligations.EncodeAnswersWireFrame := by
  intro typ payload s e headed wire
  have hheaded : checkedSpan (dec3 (4 + e.length)) typ e = headed := checkedSpan_eq_fields _ _ _
  have hwire : frameWith s.cfg typ payload (hex4 (frameChecksum s.cfg typ payload)) = wire := by
    rw [frameWith, frameChecksum, hheaded]
    simp [wire]
  refine ⟨fun htyp => ?_, fun htyp hbudget => ?_, fun htyp hbudget => ?_⟩
  · exact exec_encode_of_error (frameEncode_of_invalid_type htyp payload)
  · exact exec_encode_of_error (frameEncode_of_over_budget htyp hbudget)
  · rw [exec_encode_of_ok (frameEncode_of_fits htyp hbudget), hwire]
    rfl

/-! ## DECODE (R144) -/

theorem exec_decode_of_error {now : U32} {buffer : List Byte} {s : State} {e : DecodeError}
    (h : frameDecode s.cfg buffer now = .error e) :
    exec (.decode now buffer) s = .next (raiseError (decodeErrorStatus e) s) := by
  simp only [exec, execDecode, h]

theorem exec_decode_of_ok {now : U32} {buffer : List Byte} {s : State} {f : FrameRecord}
    (h : frameDecode s.cfg buffer now = .ok f) :
    exec (.decode now buffer) s = .next (respond .frame (frameBytes f) s) := by
  simp only [exec, execDecode, h]

/-- R81's record as the statements write it, field by field. -/
theorem frameBytes_eq_fields (f : FrameRecord) :
    frameBytes f = f.typ ++ beBytes 2 f.payload.length ++ f.payload ++
      beBytes 2 f.checksum.toNat ++ beBytes 4 f.receivedAt.toNat := by
  simp only [frameBytes, spanBytes, List.append_assoc]

/-- Settles O30, by what decoding the buffer gives. -/
theorem decodeAnswersFrameOrError : Obligations.DecodeAnswersFrameOrError := by
  refine fun now buffer s => ⟨fun f h => ?_, exec_decode_of_error, exec_decode_of_error⟩
  rw [exec_decode_of_ok h, frameBytes_eq_fields]
  rfl

/-! ## The one outcome of a byte (R143) -/

theorem outcomeOf_cons_of_ne_begin {e : Event} (h : e ≠ .begin) (rest : List Event) :
    outcomeOf (e :: rest) = some e := by
  cases e with
  | begin => exact absurd rfl h
  | malformed | mismatch | frame => rfl

theorem outcomeOf_eq_none_iff {events : List Event} :
    outcomeOf events = none ↔ ∀ e ∈ events, e = .begin := by
  induction events with
  | nil => simp [outcomeOf]
  | cons e rest ih =>
    by_cases h : e = .begin
    · rw [h, outcomeOf, ih]
      simp
    · simp [outcomeOf_cons_of_ne_begin h, h]

theorem mem_of_outcomeOf {events : List Event} {e : Event} (h : outcomeOf events = some e) :
    e ∈ events ∧ e ≠ .begin := by
  induction events with
  | nil => cases h
  | cons first rest ih =>
    by_cases hfirst : first = .begin
    · rw [hfirst, outcomeOf] at h
      obtain ⟨hmem, hne⟩ := ih h
      exact ⟨List.mem_cons_of_mem _ hmem, hne⟩
    · rw [outcomeOf_cons_of_ne_begin hfirst] at h
      obtain rfl := Option.some.inj h
      exact ⟨List.mem_cons_self, hfirst⟩

/-- A byte has at most one event beside Begin, so DECODE's outcome of the byte is that event. -/
theorem mem_byteStep_iff_outcomeOf {c : Config} {q : ParserState} {b : Byte} {now : U32}
    {e : Event} (he : e ≠ .begin) :
    e ∈ (byteStep c q b now).2 ↔ outcomeOf (byteStep c q b now).2 = some e := by
  refine ⟨fun hmem => ?_, fun h => (mem_of_outcomeOf h).1⟩
  cases hr : resyncs c q b with
  | true =>
    rw [byteStep_of_resyncs hr] at hmem ⊢
    obtain rfl : e = .malformed := by simpa [he] using hmem
    rfl
  | false =>
    rw [byteStep_of_not_resyncs hr] at hmem ⊢
    rw [Option.mem_toList.mp hmem]
    exact outcomeOf_cons_of_ne_begin he []

/-! ## DECODE's loop against a run of the parser (R143, R146) -/

/-- What DECODE says of an event on the last byte of its buffer (R143). -/
def verdict : Event → Except DecodeError FrameRecord
  | .begin => .error .malformed
  | .malformed => .error .malformed
  | .mismatch => .error .checksumMismatch
  | .frame f => .ok f

/-- From `q` the buffer runs with no event but Begin up to its last byte, which has the event `e`
(R146). -/
def FirstEventIsLast (c : Config) (now : U32) (q : ParserState) (buf : List Byte) (e : Event) :
    Prop :=
  ∃ before last, buf = before ++ [last] ∧
    (∀ e' ∈ (parseSpan c now q before).2, e' = Event.begin) ∧
    e ∈ (byteStep c (parseSpan c now q before).1 last now).2

theorem not_firstEventIsLast_nil (c : Config) (now : U32) (q : ParserState) (e : Event) :
    ¬ FirstEventIsLast c now q [] e := by
  rintro ⟨before, last, hnil, -⟩
  simp at hnil

theorem firstEventIsLast_cons {c : Config} {now : U32} {q : ParserState} {b : Byte}
    {rest : List Byte} {e : Event} :
    FirstEventIsLast c now q (b :: rest) e ↔
      (rest = [] ∧ e ∈ (byteStep c q b now).2) ∨
      ((∀ e' ∈ (byteStep c q b now).2, e' = .begin) ∧
        FirstEventIsLast c now (byteStep c q b now).1 rest e) := by
  constructor
  · rintro ⟨before, last, hbuf, hquiet, he⟩
    cases before with
    | nil =>
      obtain ⟨rfl, rfl⟩ := List.cons.inj hbuf
      exact .inl ⟨rfl, he⟩
    | cons x before =>
      obtain ⟨rfl, rfl⟩ := List.cons.inj hbuf
      obtain ⟨hb, hbefore⟩ := List.forall_mem_append.mp hquiet
      exact .inr ⟨hb, before, last, rfl, hbefore, he⟩
  · rintro (⟨rfl, he⟩ | ⟨hb, before, last, rfl, hbefore, he⟩)
    · exact ⟨[], b, rfl, by simp [parseSpan], he⟩
    · exact ⟨b :: before, last, rfl, List.forall_mem_append.mpr ⟨hb, hbefore⟩, he⟩

theorem decodeLoop_cons_of_quiet {c : Config} {now : U32} {q : ParserState} {b : Byte}
    (h : outcomeOf (byteStep c q b now).2 = none) (rest : List Byte) :
    decodeLoop c now q (b :: rest) = decodeLoop c now (byteStep c q b now).1 rest := by
  simp only [decodeLoop, h]

/-- A byte with an outcome ends DECODE, and only the last byte's outcome counts. -/
theorem decodeLoop_cons_of_outcome {c : Config} {now : U32} {q : ParserState} {b : Byte}
    {e : Event} (h : outcomeOf (byteStep c q b now).2 = some e) (rest : List Byte) :
    decodeLoop c now q (b :: rest) = if rest = [] then verdict e else .error .malformed := by
  obtain ⟨-, hne⟩ := mem_of_outcomeOf h
  cases e with
  | begin => exact absurd rfl hne
  | malformed | mismatch | frame => simp [decodeLoop, h, verdict]

/-- Two events of which DECODE says the same, other than malformed, are one event. -/
theorem verdict_injective {e e' : Event} (he : verdict e ≠ .error .malformed)
    (h : verdict e' = verdict e) : e' = e := by
  cases e with
  | begin | malformed => exact absurd rfl he
  | mismatch =>
    cases e' with
    | mismatch => rfl
    | begin | malformed | frame => cases h
  | frame f =>
    cases e' with
    | frame => cases h; rfl
    | begin | malformed | mismatch => cases h

/-- DECODE's loop, byte by byte, is a run of the parser whose first event stands on the last
byte. -/
theorem decodeLoop_eq_verdict_iff {c : Config} {now : U32} {e : Event}
    (he : verdict e ≠ .error .malformed) (q : ParserState) (buf : List Byte) :
    decodeLoop c now q buf = verdict e ↔ FirstEventIsLast c now q buf e := by
  have hne : e ≠ .begin := fun h => he (h ▸ rfl)
  induction buf generalizing q with
  | nil => simp [decodeLoop, he.symm, not_firstEventIsLast_nil]
  | cons b rest ih =>
    rw [firstEventIsLast_cons, mem_byteStep_iff_outcomeOf hne, ← outcomeOf_eq_none_iff]
    cases h : outcomeOf (byteStep c q b now).2 with
    | none => simp [decodeLoop_cons_of_quiet h, ih]
    | some e' =>
      have hsame : verdict e' = verdict e ↔ e' = e := ⟨verdict_injective he, congrArg verdict⟩
      by_cases hrest : rest = []
      · simp [decodeLoop_cons_of_outcome h, hrest, hsame]
      · simp [decodeLoop_cons_of_outcome h, hrest, he.symm]

theorem frameDecode_eq_verdict_iff {c : Config} {buf : List Byte} {now : U32} {e : Event}
    (he : verdict e ≠ .error .malformed) :
    frameDecode c buf now = verdict e ↔
      buf.head? = some c.startMarker ∧ FirstEventIsLast c now .idle buf e := by
  by_cases hstart : buf.head? = some c.startMarker
  · simp [frameDecode, hstart, decodeLoop_eq_verdict_iff he]
  · simp [frameDecode, hstart, he.symm]

/-- Settles O31: a frame is DECODE's verdict on a last byte that completes it. -/
theorem decodeAgreesWithParser : Obligations.DecodeAgreesWithParser :=
  fun _ _ _ f => frameDecode_eq_verdict_iff (e := .frame f) nofun

/-- Settles O32: a mismatch is DECODE's verdict on a last byte that finds it. -/
theorem decodeMismatchOnLastByte : Obligations.DecodeMismatchOnLastByte :=
  fun _ _ _ => frameDecode_eq_verdict_iff (e := .mismatch) nofun

/-! ## Decode of what encode made (R145) -/

theorem byteStep_idle_start (c : Config) (now : U32) :
    byteStep c .idle c.startMarker now = (.readingLength now [], [.begin]) := by
  simp [byteStep, resyncs, byteArm, idleArm]

/-- From `Idle`, a frame short of its last byte begins an attempt and takes it to that byte. -/
theorem parseSpan_idle_to_last_byte {c : Config} (hwf : c.wf = true) (now : U32)
    {typ payload check : List Byte} (htyp : typ.length = 3)
    (hr : c.resyncOnStart = false ∨ c.startMarker ∉ typ ++ check)
    (hbudget : 4 + (escape c payload).length ≤ c.payloadBudget) (hcheck : check.length = 3) :
    parseSpan c now .idle (frameWith c typ payload check) =
      (.readingChecksum now (dec3 (4 + (escape c payload).length)) typ (escape c payload) payload
        check, [.begin]) := by
  have hrun := parseSpan_to_last_byte hwf now now htyp hr hbudget hcheck
  rw [frameWith, List.tail_cons] at hrun
  simp only [frameWith, parseSpan, byteStep_idle_start, hrun, List.append_nil]

/-- The last byte of a checksum field that matches completes the frame (43_parser.md R185). -/
theorem byteStep_checksumMatch {c : Config} {start now : U32}
    {lenDigits typ raw payload check : List Byte} {last : Byte}
    (hr : c.resyncOnStart = false ∨ last ≠ c.startMarker) (hlen : check.length = 3)
    (hmatch : check ++ [last] = hex4 (crc16 c (checkedSpan lenDigits typ raw))) :
    byteStep c (.readingChecksum start lenDigits typ raw payload check) last now =
      (.idle, [.frame ⟨typ, payload, crc16 c (checkedSpan lenDigits typ raw), now⟩]) := by
  rw [byteStep_of_not_resyncs (resyncs_eq_false_of _ hr)]
  simp [byteArm, checksumArm, hlen, hmatch]

theorem startMarker_notMem_hex4 {c : Config} (hwf : c.wf = true) (v : U16) :
    c.startMarker ∉ hex4 v :=
  fun h => startMarker_ne_of_header hwf (isHeaderByte_of_mem_hex4 h) rfl

/-- An encoded frame has no event but Begin before its last byte, which completes it. -/
theorem firstEventIsLast_encoded {c : Config} (hwf : c.wf = true) (now : U32)
    {typ payload : List Byte} (htyp : typ.length = 3)
    (hr : c.resyncOnStart = false ∨ c.startMarker ∉ typ)
    (hbudget : 4 + (escape c payload).length ≤ c.payloadBudget) :
    FirstEventIsLast c now .idle (frameWith c typ payload (hex4 (frameChecksum c typ payload)))
      (.frame ⟨typ, payload, frameChecksum c typ payload, now⟩) := by
  obtain ⟨check, last, hsplit, hcheck⟩ : ∃ check last,
      hex4 (frameChecksum c typ payload) = check ++ [last] ∧ check.length = 3 :=
    ⟨[_, _, _], _, rfl, rfl⟩
  have hclear := startMarker_notMem_hex4 hwf (frameChecksum c typ payload)
  rw [hsplit, List.mem_append, not_or] at hclear
  obtain ⟨hclearCheck, hclearLast⟩ := hclear
  have hbefore := parseSpan_idle_to_last_byte hwf now htyp
    (hr.imp_right fun hs => by simp [hs, hclearCheck]) hbudget hcheck
  have hlast := byteStep_checksumMatch (start := now) (now := now) (payload := payload)
    (.inr fun h => hclearLast (by simp [h])) hcheck hsplit.symm
  rw [hsplit, frameWith_append]
  refine ⟨_, last, rfl, ?_, ?_⟩
  · simp [hbefore]
  · rw [hbefore, hlast, frameChecksum]
    exact List.mem_singleton_self _

/-- Settles O33: an encoded frame begins with START and its last byte completes it, so DECODE
returns the frame (O31). -/
theorem decodeInvertsEncode : Obligations.DecodeInvertsEncode := by
  intro c typ payload wire now hwf hencode hr
  obtain ⟨htyp, hbudget, rfl⟩ := frameEncode_eq_frameWith hencode
  rw [← checkedSpan_eq_fields]
  exact (decodeAgreesWithParser _ _ _ _).mpr
    ⟨rfl, firstEventIsLast_encoded hwf now htyp hr hbudget⟩

end Sys2Proof.Machine
end

/-! # Proofs: the Frame Parser, one FEED or TICK (43_parser.md R170 to R193) -/

section
namespace Sys2Proof.Machine

/-! ## TICK (R171, R172) -/

theorem exec_tick (now : U32) (s : State) :
    exec (.tick now) s = .next (respond .ok [] (timeoutCheck now s)) := rfl

/-- Settles O36, by what the timeout check finds. -/
theorem tickAppliesTimeout : Obligations.TickAppliesTimeout := by
  refine fun now s => ⟨fun hidle => ?_, fun start hstart => ⟨fun ht => ?_, fun ht => ?_⟩⟩
  · rw [exec_tick, timeoutCheck_of_idle now hidle]
    rfl
  · rw [exec_tick, timeoutCheck_of_in_time hstart ht]
    rfl
  · rw [exec_tick, timeoutCheck_of_late hstart ht]
    rfl

/-! ## One FEED that finds no timeout (R170, R173) -/

theorem byteStep_of_byteArm {c : Config} {q q' : ParserState} {b : Byte} {now : U32}
    {event : Option Event} (hr : resyncs c q b = false) (harm : byteArm c q b now = (q', event)) :
    byteStep c q b now = (q', event.toList) := by
  rw [byteStep_of_not_resyncs hr, harm]

theorem exec_feed_of_no_timeout {s : State} {now : U32} {b : Byte} {q : ParserState}
    {events : List Event} (hcheck : timeoutCheck now s = s)
    (hstep : byteStep s.cfg s.parser b now = (q, events)) :
    exec (.feed now b) s =
      .next (respondEvents events (events.foldl countEvent (setParser q s))) := by
  simp only [exec, execFeed, hcheck, feedByte, hstep]

/-- A FEED with an attempt in progress and in time does what the per-byte step says. -/
theorem exec_feed_in_attempt {s : State} {q q' : ParserState} {start now : U32} {b : Byte}
    {events : List Event} (hq : s.parser = q) (hstart : q.start? = some start)
    (ht : elapsed s.cfg start now ≤ s.cfg.timeoutMs.toNat)
    (hstep : byteStep s.cfg q b now = (q', events)) :
    exec (.feed now b) s =
      .next (respondEvents events (events.foldl countEvent (setParser q' s))) := by
  subst hq
  exact exec_feed_of_no_timeout (timeoutCheck_of_in_time hstart ht) hstep

/-! ## `Idle` (R174) -/

theorem byteStep_idle_other {c : Config} {b : Byte} (hb : b ≠ c.startMarker) (now : U32) :
    byteStep c .idle b now = (.idle, []) :=
  byteStep_of_byteArm (event := none) (resyncs_eq_false_of _ (.inr hb))
    (by simp [byteArm, idleArm, hb])

/-- Settles O37, by whether the byte is START. -/
theorem feedInIdle : Obligations.FeedInIdle := by
  refine fun now b s hidle => ⟨?_, fun hb => ?_⟩
  · rintro rfl
    exact exec_feed_start hidle now
  · exact exec_feed_of_no_timeout (q := s.parser) (timeoutCheck_of_idle now hidle)
      (by rw [hidle]; exact byteStep_idle_other hb now)

/-! ## `ReadingLength` (R175, R176) -/

section
variable {start : U32} {lenDigits : List Byte} {b : Byte}

theorem lengthArm_digit (hlen : lenDigits.length < 3) (hb : isDigit b = true) :
    lengthArm start lenDigits b = (.readingLength start (lenDigits ++ [b]), none) := by
  simp [lengthArm, hlen, hb]

theorem lengthArm_not_digit (hlen : lenDigits.length < 3) (hb : ¬ isDigit b = true) :
    lengthArm start lenDigits b = failMalformed := by
  simp [lengthArm, hlen, hb]

theorem lengthArm_colon (hlen : lenDigits.length = 3) :
    lengthArm start lenDigits colon = (.readingType start lenDigits [], none) := by
  simp [lengthArm, hlen]

theorem lengthArm_not_colon (hlen : lenDigits.length = 3) (hb : b ≠ colon) :
    lengthArm start lenDigits b = failMalformed := by
  simp [lengthArm, hlen, hb]

end

/-- Settles O38, clause by clause of the arm. -/
theorem feedInReadingLength : Obligations.FeedInReadingLength := by
  intro now start lenDigits b s hq ht hr fails
  have hfeed {q : ParserState} {event : Option Event}
      (harm : lengthArm start lenDigits b = (q, event)) :=
    exec_feed_in_attempt hq rfl ht (byteStep_of_byteArm (resyncs_eq_false_of _ hr) harm)
  refine ⟨fun hlen hlow hhigh => ?_, fun hlen hb => ?_, fun hlen hb => ?_, fun hlen hb => ?_⟩
  · exact hfeed (lengthArm_digit hlen (isDigit_iff.mpr ⟨hlow, hhigh⟩))
  · exact hfeed (lengthArm_not_digit hlen (isDigit_iff.not.mpr hb))
  · subst hb
    exact hfeed (lengthArm_colon hlen)
  · exact hfeed (lengthArm_not_colon hlen hb)

/-! ## `ReadingType` (R177, R178) -/

theorem typeArm_not_colon {start : U32} {lenDigits typ : List Byte} {b : Byte}
    (htyp : typ.length = 3) (hb : b ≠ colon) : typeArm start lenDigits typ b = failMalformed := by
  simp [typeArm, htyp, hb]

theorem typeArm_colon {start : U32} {lenDigits typ : List Byte} (htyp : typ.length = 3) :
    typeArm start lenDigits typ colon = (.readingPayload start lenDigits typ [] false, none) := by
  simp [typeArm, htyp]

/-- Settles O39, clause by clause of the arm. -/
theorem feedInReadingType : Obligations.FeedInReadingType := by
  intro now start lenDigits typ b s hq ht hr
  have hfeed {q : ParserState} {event : Option Event}
      (harm : typeArm start lenDigits typ b = (q, event)) :=
    exec_feed_in_attempt hq rfl ht (byteStep_of_byteArm (resyncs_eq_false_of _ hr) harm)
  refine ⟨fun htyp => ?_, fun htyp hb => ?_, fun htyp hb => ?_⟩
  · exact exec_feed_in_attempt hq rfl ht (byteStep_typeByte hr start now lenDigits htyp)
  · subst hb
    exact hfeed (typeArm_colon htyp)
  · exact hfeed (typeArm_not_colon htyp hb)

/-! ## `ReadingPayload` (R179 to R183) -/

theorem escFlagNext_eq_ite (c : Config) (esc : Bool) (b : Byte) :
    escFlagNext c esc b = if esc = false ∧ b = c.escMarker then true else false := by
  cases esc with
  | true => rfl
  | false => simp [escFlagNext, beq_eq_decide]

theorem resyncs_after_esc (c : Config) (start : U32) (lenDigits typ raw : List Byte) (b : Byte) :
    resyncs c (.readingPayload start lenDigits typ raw true) b = false := by
  simp [resyncs]

section
variable {c : Config} {start : U32} {lenDigits typ raw : List Byte}

theorem payloadArm_endMarker :
    payloadArm c start lenDigits typ raw false c.endMarker = endPayload c start lenDigits typ raw :=
  (payloadArm_eq _ _ _ _ _ _ _).trans (if_pos ⟨rfl, rfl⟩)

theorem payloadArm_kept {esc : Bool} {b : Byte} (h : ¬ (esc = false ∧ b = c.endMarker)) :
    payloadArm c start lenDigits typ raw esc b =
      appendRaw c start lenDigits typ raw b (escFlagNext c esc b) :=
  (payloadArm_eq _ _ _ _ _ _ _).trans (if_neg h)

theorem appendRaw_of_fits (hbudget : 4 + (raw.length + 1) ≤ c.payloadBudget) (b : Byte)
    (esc : Bool) :
    appendRaw c start lenDigits typ raw b esc =
      (.readingPayload start lenDigits typ (raw ++ [b]) esc, none) :=
  if_neg (by simpa using hbudget)

theorem appendRaw_of_over_budget (hbudget : c.payloadBudget < 4 + (raw.length + 1)) (b : Byte)
    (esc : Bool) : appendRaw c start lenDigits typ raw b esc = failMalformed :=
  if_pos (by simpa using hbudget)

theorem endPayload_of_wrong_length (hlen : 4 + raw.length ≠ decVal3 lenDigits) :
    endPayload c start lenDigits typ raw = failMalformed :=
  if_pos hlen

end

/-- Settles O40: every byte but an unescaped END is kept, within the budget. -/
theorem feedKeepsPayloadByte : Obligations.FeedKeepsPayloadByte := by
  intro now start lenDigits typ raw esc b s hq ht hkept
  have hr : resyncs s.cfg (.readingPayload start lenDigits typ raw esc) b = false := by
    rcases hkept with rfl | ⟨-, hr⟩
    · exact resyncs_after_esc _ _ _ _ _ _
    · exact resyncs_eq_false_of _ hr
  have hnotEnd : ¬ (esc = false ∧ b = s.cfg.endMarker) := by
    rintro ⟨rfl, rfl⟩
    simp at hkept
  have hfeed {q : ParserState} {event : Option Event}
      (h : appendRaw s.cfg start lenDigits typ raw b (escFlagNext s.cfg esc b) = (q, event)) :=
    exec_feed_in_attempt hq rfl ht (byteStep_of_byteArm hr ((payloadArm_kept hnotEnd).trans h))
  rw [← escFlagNext_eq_ite]
  exact ⟨fun hbudget => hfeed (appendRaw_of_fits hbudget _ _),
    fun hbudget => hfeed (appendRaw_of_over_budget hbudget _ _)⟩

/-- Settles O41: the invariant makes the escape flag that of the raw payload, so with the flag clear
no ESC is unpaired and the payload unescapes. -/
theorem feedEndsPayload : Obligations.FeedEndsPayload := by
  intro now start lenDigits typ raw s hinv hq ht
  obtain ⟨hwf, hlegal, -⟩ := hinv
  rw [hq] at hlegal
  obtain ⟨-, -, -, hflag⟩ := hlegal
  obtain ⟨hne, -⟩ := Config.wf_markers hwf
  refine ⟨fun hlen => ?_, fun hlen => ?_⟩
  · exact exec_feed_in_attempt hq rfl ht (byteStep_of_byteArm
      (resyncs_eq_false_of _ (.inr hne.symm))
      (payloadArm_endMarker.trans (endPayload_of_wrong_length hlen)))
  · obtain ⟨payload, hpayload⟩ : ∃ payload, unescape s.cfg raw = some payload := by
      rw [← Option.ne_none_iff_exists', Ne, unescape_eq_none_iff, ← hflag]
      exact Bool.false_ne_true
    exact ⟨payload, hpayload,
      exec_feed_in_attempt hq rfl ht (byteStep_payloadEnd hwf hlen hpayload now)⟩

/-! ## `ReadingChecksum` (R184, R185) -/

/-- The last byte of a checksum field that matches emits the frame (R185). -/
theorem exec_feed_frame {s : State} {start now : U32} {lenDigits typ raw payload check : List Byte}
    {last : Byte} (hq : s.parser = .readingChecksum start lenDigits typ raw payload check)
    (ht : elapsed s.cfg start now ≤ s.cfg.timeoutMs.toNat)
    (hr : s.cfg.resyncOnStart = false ∨ last ≠ s.cfg.startMarker) (hlen : check.length = 3)
    (hmatch : check ++ [last] = hex4 (crc16 s.cfg (checkedSpan lenDigits typ raw))) :
    exec (.feed now last) s = .next (respond .frame (frameBytes
      ⟨typ, payload, crc16 s.cfg (checkedSpan lenDigits typ raw), now⟩) (countValid (goIdle s))) :=
  exec_feed_in_attempt hq rfl ht (byteStep_checksumMatch hr hlen hmatch)

theorem checksumArm_mismatch {c : Config} {start now : U32}
    {lenDigits typ raw payload cs : List Byte} {b : Byte} (hlen : cs.length = 3)
    (hne : cs ++ [b] ≠ hex4 (crc16 c (checkedSpan lenDigits typ raw))) :
    checksumArm c start lenDigits typ raw payload cs b now = (.idle, some .mismatch) := by
  simp [checksumArm, hlen, hne]

/-- Settles O42: a byte of the field, its last byte with a match, its last byte without. -/
theorem feedInReadingChecksum : Obligations.FeedInReadingChecksum := by
  intro now start lenDigits typ raw payload cs b s hq ht hr expected
  have hexpected : crc16 s.cfg (checkedSpan lenDigits typ raw) = expected :=
    congrArg (crc16 s.cfg) (checkedSpan_eq_fields lenDigits typ raw)
  rw [← hexpected]
  refine ⟨fun hlen => ?_, fun hlen hmatch => ?_, fun hlen hne => ?_⟩
  · exact exec_feed_in_attempt hq rfl ht
      (byteStep_checksumByte hr start now lenDigits typ raw payload hlen)
  · exact exec_feed_frame hq ht hr hlen hmatch
  · exact exec_feed_in_attempt hq rfl ht (byteStep_of_byteArm (resyncs_eq_false_of _ hr)
      (checksumArm_mismatch hlen hne))

/-! ## Resynchronisation (R186) -/

/-- With `RESYNC_ON_START` a START resynchronises in every state with an attempt in progress but
behind an ESC of the payload. -/
theorem resyncs_startMarker {c : Config} {q : ParserState} {start : U32}
    (hresync : c.resyncOnStart = true) (hstart : q.start? = some start)
    (hesc : ∀ start' lenDigits typ raw, q ≠ .readingPayload start' lenDigits typ raw true) :
    resyncs c q c.startMarker = true := by
  cases q with
  | idle => cases hstart
  | readingPayload start' lenDigits typ raw esc =>
    cases esc with
    | true => exact absurd rfl (hesc start' lenDigits typ raw)
    | false => simp [resyncs, hresync]
  | readingLength | readingType | readingChecksum => simp [resyncs, hresync]

theorem resyncOnStart_of_resyncs {c : Config} {q : ParserState} {b : Byte}
    (hr : resyncs c q b = true) : c.resyncOnStart = true := by
  by_contra h
  rw [resyncs_eq_false_of q (.inl (Bool.eq_false_of_not_eq_true h))] at hr
  cases hr

/-- Settles O43: such a START resynchronises, and with `RESYNC_ON_START = false` no byte does. -/
theorem feedResynchronises : Obligations.FeedResynchronises := by
  refine ⟨fun now start s hstart ht hresync hesc => ?_, fun c q b now hresync => ?_⟩
  · exact exec_feed_in_attempt rfl hstart ht
      (byteStep_of_resyncs (resyncs_startMarker hresync hstart hesc) now)
  · exact byteStep_of_not_resyncs (resyncs_eq_false_of q (.inl hresync)) now

/-! ## The events of one FEED (R193) -/

/-- In `Idle` a byte begins an attempt or counts nothing. -/
theorem absorbByte_cases_of_idle {s : State} (hidle : s.parser = .idle) (now : U32) (b : Byte) :
    (∃ q, absorbByte now b s = setParser q s) ∨ absorbByte now b s = beginAttempt now s := by
  obtain ⟨q, -, heq⟩ | ⟨-, heq⟩ | ⟨hactive, -⟩ | ⟨hactive, -⟩ := absorbByte_cases now b s
  · exact .inl ⟨q, heq⟩
  · exact .inr heq
  · exact absurd hidle hactive
  · exact absurd hidle hactive

theorem exec_feed_stats {s t : State} {now : U32} {b : Byte} (h : exec (.feed now b) s = .next t) :
    t.stats = (absorbByte now b (timeoutCheck now s)).stats := by
  cases h
  rw [feedByte_eq_respondEvents, respondEvents_stats]

/-- Settles O45: the numbers of events, by what the timeout check and then the byte do. -/
theorem feedEventBounds : Obligations.FeedEventBounds := by
  intro now b s t h
  rw [exec_feed_stats h]
  obtain ⟨hcheck, -⟩ | ⟨hcheck, -⟩ := timeoutCheck_cases now s
  · rw [hcheck]
    cases hr : resyncs s.cfg s.parser b with
    | true =>
      rw [absorbByte_of_resyncs hr]
      exact ⟨1, 0, 0, 1, 0, rfl, rfl, rfl, rfl, rfl, by simp [resyncOnStart_of_resyncs hr]⟩
    | false =>
      obtain ⟨_, heq, -⟩ | ⟨-, -, heq⟩ | ⟨-, heq⟩ | ⟨_, _, _, _, _, _, -, ⟨-, heq⟩ | ⟨-, heq⟩⟩ :=
        byteArm_cases s.cfg s.parser b now <;> rw [absorbByte_of_byteArm hr heq]
      · exact ⟨0, 0, 0, 0, 0, rfl, rfl, rfl, rfl, rfl, by simp⟩
      · exact ⟨1, 0, 0, 0, 0, rfl, rfl, rfl, rfl, rfl, by simp⟩
      · exact ⟨0, 0, 0, 1, 0, rfl, rfl, rfl, rfl, rfl, by simp⟩
      · exact ⟨0, 1, 0, 0, 0, rfl, rfl, rfl, rfl, rfl, by simp⟩
      · exact ⟨0, 0, 1, 0, 0, rfl, rfl, rfl, rfl, rfl, by simp⟩
  · rw [hcheck]
    obtain ⟨_, heq⟩ | heq := absorbByte_cases_of_idle (s := goIdle (countTimeout s)) rfl now b <;>
      rw [heq]
    · exact ⟨0, 0, 0, 0, 1, rfl, rfl, rfl, rfl, rfl, by simp⟩
    · exact ⟨1, 0, 0, 0, 1, rfl, rfl, rfl, rfl, rfl, by simp⟩

/-! ## The frame a FEED emits (R188, R190) -/

/-- Only the fourth byte of a checksum field that matches emits a frame. -/
theorem emitted_byteStep {c : Config} {q : ParserState} {b : Byte} {now : U32} {f : FrameRecord}
    (h : emitted (byteStep c q b now).2 = some f) :
    ∃ start lenDigits typ raw payload cs,
      q = .readingChecksum start lenDigits typ raw payload cs ∧
      f = ⟨typ, payload, crc16 c (checkedSpan lenDigits typ raw), now⟩ ∧
      cs ++ [b] = hex4 (crc16 c (checkedSpan lenDigits typ raw)) := by
  cases hr : resyncs c q b with
  | true =>
    rw [byteStep_of_resyncs hr] at h
    cases h
  | false =>
    rw [byteStep_of_not_resyncs hr] at h
    obtain ⟨_, heq, -⟩ | ⟨-, -, heq⟩ | ⟨-, heq⟩ |
      ⟨start, lenDigits, typ, raw, payload, cs, hq, ⟨hmatch, heq⟩ | ⟨-, heq⟩⟩ :=
      byteArm_cases c q b now <;> rw [heq] at h <;> cases h
    exact ⟨start, lenDigits, typ, raw, payload, cs, hq, rfl, hmatch⟩

/-- A FEED whose response has the status of a frame emitted one. -/
theorem exec_feed_emitted {s t : State} {now : U32} {b : Byte} {fields : List Byte}
    (h : exec (.feed now b) s = .next t) (hresponse : t.response = some (0x01#8 :: fields)) :
    ∃ f, fields = frameBytes f ∧
      emitted (byteStep s.cfg (timeoutCheck now s).parser b now).2 = some f := by
  cases h
  rw [feedByte_eq_respondEvents, timeoutCheck_cfg] at hresponse
  obtain ⟨-, heq⟩ | ⟨f, hf, heq⟩ :=
    respondEvents_cases (byteStep s.cfg (timeoutCheck now s).parser b now).2
      (absorbByte now b (timeoutCheck now s)) <;> rw [heq] at hresponse <;> cases hresponse
  exact ⟨f, rfl, hf⟩

/-- Settles O46: the frame comes from `ReadingChecksum`, and the invariant gives the rest. -/
theorem emittedFrameChecksumMatches : Obligations.EmittedFrameChecksumMatches := by
  intro now b s t fields hinv h hresponse
  obtain ⟨f, rfl, hf⟩ := exec_feed_emitted h hresponse
  obtain ⟨start, lenDigits, typ, raw, payload, cs, hq, rfl, hmatch⟩ := emitted_byteStep hf
  obtain ⟨hcheck, -⟩ | ⟨hcheck, -⟩ := timeoutCheck_cases now s <;> rw [hcheck] at hq
  · obtain ⟨-, hlegal, -⟩ := hinv
    rw [hq] at hlegal
    obtain ⟨-, -, -, hlen, hpayload, -⟩ := hlegal
    rw [checkedSpan_eq_fields] at hmatch ⊢
    exact ⟨start, lenDigits, typ, raw, payload, cs, hq, rfl, hmatch, hpayload, hlen⟩
  · cases hq

/-! ## No attempt outlives the timeout (R192) -/

/-- After a timeout check any attempt still in progress is in time. -/
theorem timeoutCheck_in_time {s : State} {now start : U32}
    (h : (timeoutCheck now s).parser.start? = some start) :
    elapsed s.cfg start now ≤ s.cfg.timeoutMs.toNat := by
  obtain ⟨hcheck, hintime⟩ | ⟨hcheck, -⟩ := timeoutCheck_cases now s <;> rw [hcheck] at h
  · exact hintime start h
  · cases h

/-- The attempt in progress after a byte is the one before it, or began with the byte. -/
theorem byteStep_start {c : Config} {q : ParserState} {b : Byte} {now start : U32}
    (h : (byteStep c q b now).1.start? = some start) : q.start? = some start ∨ start = now := by
  cases hr : resyncs c q b with
  | true =>
    rw [byteStep_of_resyncs hr] at h
    cases h
    exact .inr rfl
  | false =>
    rw [byteStep_of_not_resyncs hr] at h
    obtain ⟨_, heq, hstart, -⟩ | ⟨-, -, heq⟩ | ⟨-, heq⟩ |
      ⟨_, _, _, _, _, _, -, ⟨-, heq⟩ | ⟨-, heq⟩⟩ := byteArm_cases c q b now <;> rw [heq] at h
    · exact .inl (hstart ▸ h)
    · cases h
      exact .inr rfl
    all_goals cases h

/-- Settles O47: the timeout check leaves an attempt in time only, and one that the byte begins has
lasted for no time. -/
theorem noAttemptOutlivesTimeout : Obligations.NoAttemptOutlivesTimeout := by
  rintro i now s t (rfl | ⟨b, rfl⟩) h start hstart
  · cases h
    exact timeoutCheck_in_time hstart
  · cases h
    rw [feedByte_parser] at hstart
    obtain hstart | rfl := byteStep_start hstart
    · exact timeoutCheck_in_time hstart
    · rw [elapsed_self]
      exact Nat.zero_le _

end Sys2Proof.Machine
end

/-! # Proofs: encoded frames through the Frame Parser (43_parser.md R186, R191) -/

section
namespace Sys2Proof.Machine

/-! ## The bytes of an encoded frame, each at its own time (R191) -/

/-- A time from the START's up to `TIMEOUT_MS` after it is in time. -/
theorem elapsed_le_timeout {c : Config} (hwf : c.wf = true) {start now : U32}
    (hfrom : start.toNat ≤ now.toNat) (hto : now.toNat ≤ start.toNat + c.timeoutMs.toNat) :
    elapsed c start now ≤ c.timeoutMs.toNat := by
  obtain ⟨-, -, -, htimeout, -⟩ := Config.wf_sizes hwf
  obtain ⟨d, hd⟩ := Nat.exists_eq_add_of_le hfrom
  have helapsed : elapsed c start now = d := elapsed_eq_of_turns 0 (by omega) (by omega)
  omega

/-- From `Idle`, a frame short of its last byte, fed in time of its START, begins an attempt and
takes it to that byte. -/
theorem runSeries_timedFeeds_to_last_byte {s : State} {typ payload check : List Byte} {first : U32}
    {later : List U32} (hwf : s.cfg.wf = true) (hidle : s.parser = .idle)
    (hr : s.cfg.resyncOnStart = false ∨ s.cfg.startMarker ∉ typ ++ check)
    (htyp : typ.length = 3) (hbudget : 4 + (escape s.cfg payload).length ≤ s.cfg.payloadBudget)
    (hcheck : check.length = 3)
    (hlen : later.length + 1 = (frameWith s.cfg typ payload check).length)
    (htimes : ∀ t ∈ later, elapsed s.cfg first t ≤ s.cfg.timeoutMs.toNat) :
    runSeries s (List.zipWith Instr.feed (first :: later) (frameWith s.cfg typ payload check)) =
      some (respond .ok [] (setParser (.readingChecksum first
          (dec3 (4 + (escape s.cfg payload).length)) typ (escape s.cfg payload) payload check)
          (countAttempted s)),
        List.replicate (frameWith s.cfg typ payload check).length [0x00#8]) := by
  have htail : later.length = (frameWith s.cfg typ payload check).tail.length := by
    rw [List.length_tail]
    omega
  have hrun := runSeries_feeds_quiet (s := beginAttempt first s) (start := first) rfl htail htimes
    (parseSpan_to_last_byte hwf first first htyp hr hbudget hcheck)
  rw [frameWith, List.tail_cons] at hrun
  rw [frameWith, List.zipWith_cons_cons, runSeries_cons (exec_feed_start hidle first), hrun]
  rfl

/-- From `Idle`, an encoded frame fed in time of its START is one attempt and one frame. -/
theorem runSeries_feeds_encoded {s : State} {typ payload : List Byte} {first last : U32}
    {later : List U32} (hwf : s.cfg.wf = true) (hidle : s.parser = .idle)
    (hr : s.cfg.resyncOnStart = false ∨ s.cfg.startMarker ∉ typ) (htyp : typ.length = 3)
    (hbudget : 4 + (escape s.cfg payload).length ≤ s.cfg.payloadBudget)
    (htimes : ∀ t ∈ later ++ [last], elapsed s.cfg first t ≤ s.cfg.timeoutMs.toNat) :
    let wire := frameWith s.cfg typ payload (hex4 (frameChecksum s.cfg typ payload))
    let record := frameBytes ⟨typ, payload, frameChecksum s.cfg typ payload, last⟩
    later.length + 2 = wire.length →
    runSeries s (List.zipWith Instr.feed (first :: later ++ [last]) wire) =
      some (respond .frame record (countValid (countAttempted s)),
        List.replicate (wire.length - 1) [0x00#8] ++ [0x01#8 :: record]) := by
  intro wire record hlen
  obtain ⟨check, digit, hsplit, hcheck⟩ : ∃ check digit,
      hex4 (frameChecksum s.cfg typ payload) = check ++ [digit] ∧ check.length = 3 :=
    ⟨[_, _, _], _, rfl, rfl⟩
  have hclear := startMarker_notMem_hex4 hwf (frameChecksum s.cfg typ payload)
  rw [hsplit, List.mem_append, not_or] at hclear
  obtain ⟨hclearCheck, hclearDigit⟩ := hclear
  obtain ⟨hlater, hlast⟩ := List.forall_mem_append.mp htimes
  have hwire : wire = frameWith s.cfg typ payload check ++ [digit] := by
    rw [← frameWith_append, ← hsplit]
  rw [hwire, List.length_append, List.length_singleton] at hlen
  have hrun := runSeries_timedFeeds_to_last_byte hwf hidle
    (hr.imp_right fun hs => by simp [hs, hclearCheck]) htyp hbudget hcheck (by omega) hlater
  have hemit := exec_feed_frame (now := last) (last := digit) (payload := payload)
    (s := setParser (.readingChecksum first (dec3 (4 + (escape s.cfg payload).length)) typ
      (escape s.cfg payload) payload check) (countAttempted s)) rfl
    (hlast last (List.mem_singleton_self last)) (.inr fun h => hclearDigit (by simp [h])) hcheck
    hsplit.symm
  have hidle' (q : ParserState) : goIdle (setParser q (countAttempted s)) = countAttempted s :=
    goIdle_of_idle (s := countAttempted s) hidle
  rw [hwire, List.zipWith_append (by simp; omega), runSeries_append hrun, List.zipWith_cons_cons,
    runSeries_cons ((exec_feed_respond last digit .ok [] _).trans hemit), hidle',
    List.length_append, List.length_singleton, Nat.add_sub_cancel]
  rfl

/-- At least two times, with the first and the last one named. -/
theorem eq_cons_append_singleton {times : List U32} {first last : U32} (hlen : 2 ≤ times.length)
    (hfirst : times.head? = some first) (hlast : times.getLast? = some last) :
    ∃ later, times = first :: later ++ [last] := by
  obtain ⟨before, rfl⟩ := List.getLast?_eq_some_iff.mp hlast
  rw [List.length_append, List.length_singleton] at hlen
  obtain ⟨x, later, rfl⟩ := List.exists_cons_of_length_pos (l := before) (by omega)
  obtain rfl : x = first := by simpa using hfirst
  exact ⟨later, rfl⟩

/-- Settles O54: START begins an attempt, the bytes up to the third checksum digit are quiet, and
the fourth digit completes the frame. -/
theorem feedingAnEncodedFrameEmitsIt : Obligations.FeedingAnEncodedFrameEmitsIt := by
  intro s typ payload wire times first last hwf hidle hencode hr hlen hfirst hlast htimes answer
  obtain ⟨htyp, hbudget, rfl⟩ := frameEncode_eq_frameWith hencode
  obtain ⟨later, rfl⟩ := eq_cons_append_singleton (by simp [hlen, frameWith]) hfirst hlast
  have hintime : ∀ t ∈ first :: later ++ [last],
      elapsed s.cfg first t ≤ s.cfg.timeoutMs.toNat := fun t ht => by
    obtain ⟨hfrom, hto⟩ := htimes t ht
    exact elapsed_le_timeout hwf hfrom hto
  obtain ⟨-, hlater⟩ := List.forall_mem_cons.mp hintime
  have hrun := runSeries_feeds_encoded hwf hidle hr htyp hbudget hlater (by simpa using hlen)
  rw [hrun, frameChecksum, checkedSpan_eq_fields]
  rfl

/-! ## A START in the type, with `RESYNC_ON_START` (R186) -/

/-- A buffer that begins with START is decoded as the rest of an attempt. -/
theorem frameDecode_startMarker (c : Config) (now : U32) (rest : List Byte) :
    frameDecode c (c.startMarker :: rest) now =
      decodeLoop c now (.readingLength now []) rest := by
  rw [frameDecode, List.head?_cons, if_pos rfl,
    decodeLoop_cons_of_quiet (by rw [byteStep_idle_start]; rfl), byteStep_idle_start]

theorem decodeLoop_append_of_quiet {c : Config} {now : U32} {q q' : ParserState} {a : List Byte}
    (h : parseSpan c now q a = (q', [])) (rest : List Byte) :
    decodeLoop c now q (a ++ rest) = decodeLoop c now q' rest := by
  induction a generalizing q with
  | nil => cases h; rfl
  | cons b a ih =>
    obtain ⟨q₁, hb, ha⟩ := parseSpan_cons_eq_nil_iff.mp h
    rw [List.cons_append, decodeLoop_cons_of_quiet (by rw [hb]; rfl), hb, ih ha]

/-- DECODE ends as malformed at a START that resynchronises. -/
theorem decodeLoop_cons_of_resyncs {c : Config} {q : ParserState} {b : Byte}
    (hr : resyncs c q b = true) (now : U32) (rest : List Byte) :
    decodeLoop c now q (b :: rest) = .error .malformed := by
  rw [decodeLoop_cons_of_outcome (e := .malformed) (by rw [byteStep_of_resyncs hr]; rfl)]
  exact ite_self _

/-- A length field and the type's bytes before its first START take an attempt into the type. -/
theorem parseSpan_into_type {c : Config} (hwf : c.wf = true) (start now : U32) (n : Nat)
    {typ : List Byte} (htyp : typ.length ≤ 3) (hclear : c.startMarker ∉ typ) :
    parseSpan c now (.readingLength start []) (dec3 n ++ colon :: typ) =
      (.readingType start (dec3 n) typ, []) := by
  obtain ⟨hlen, hdigits⟩ := isLengthField_dec3 n
  have hlength := parseSpan_collect (field := ParserState.readingLength start) hlen.le
    fun _ b hb hdone => byteStep_lengthDigit hwf start now (hdigits b hb) hdone
  rw [parseSpan_append_quiet hlength,
    parseSpan_cons_quiet (byteStep_lengthColon hwf start now hlen)]
  exact parseSpan_collect (field := ParserState.readingType start (dec3 n)) htyp
    fun _ b hb hdone => byteStep_typeByte (.inr (ne_of_mem_of_not_mem hb hclear)) start now _ hdone

/-- Settles O34: the type's first START resynchronises, and DECODE ends there. -/
theorem resyncRefusesStartInType : Obligations.ResyncRefusesStartInType := by
  intro c typ payload wire now hwf hencode hresync hmem
  obtain ⟨htyp, -, rfl⟩ := frameEncode_eq_frameWith hencode
  obtain ⟨before, after, rfl, hclear⟩ := List.eq_append_cons_of_mem hmem
  have hshort : before.length ≤ 3 := by
    rw [List.length_append] at htyp
    omega
  have htype := parseSpan_into_type hwf now now (4 + (escape c payload).length) hshort hclear
  have hresyncs := resyncs_startMarker
    (q := .readingType now (dec3 (4 + (escape c payload).length)) before) hresync rfl nofun
  rw [frameWith, frameDecode_startMarker, checkedSpan_split, List.append_assoc,
    decodeLoop_append_of_quiet htype, List.cons_append, decodeLoop_cons_of_resyncs hresyncs]

end Sys2Proof.Machine
end

/-! # Proofs: statistics (44_control.md R220) -/

section
namespace Sys2Proof.Machine

/-- STATS answers `ok` and the counters, and the response is all it writes. -/
theorem exec_stats (s : State) : exec .stats s = .next (respond .ok (statsBytes s.stats) s) := rfl

/-- A counter of at most 32 bits fits the four bytes STATS gives it (30_encoding.md R80). -/
theorem beNat_beBytes_counter {c : Config} (hwf : c.wf = true) {n : Nat}
    (hn : n < 2 ^ c.counterWidth) : beNat (beBytes 4 n) = n := by
  obtain ⟨-, -, -, -, hwidth⟩ := Config.wf_sizes hwf
  apply beNat_beBytes
  calc n < 2 ^ c.counterWidth := hn
    _ ≤ 2 ^ 32 := Nat.pow_le_pow_right Nat.two_pos hwidth
    _ = 256 ^ 4 := by norm_num

/-- Settles O48: STATS writes the response alone, and a legal state's counters fit their fields. -/
theorem statsAnswersCounters : Obligations.StatsAnswersCounters := by
  intro s
  refine ⟨exec_stats s, ?_⟩
  rintro ⟨hwf, -, hattempted, hvalid, hchecksum, hmalformed, htimeouts⟩
  exact ⟨beNat_beBytes_counter hwf hattempted, beNat_beBytes_counter hwf hvalid,
    beNat_beBytes_counter hwf hchecksum, beNat_beBytes_counter hwf hmalformed,
    beNat_beBytes_counter hwf htimeouts⟩

end Sys2Proof.Machine
end

/-! # Proofs: errors, failures and the held state (60_exceptions.md R240, R241, R251, R261) -/

section
namespace Sys2Proof.Machine

/-! ## No command presented (R261) -/

/-- Settles O6: there is no command to take. -/
theorem noCommandHoldsState : Obligations.NoCommandHoldsState := by
  intro s hwf hpending
  rw [step, if_pos hwf, takeCommand_eq_none.mpr hpending]

/-! ## A FEED that finds a timeout (R251) -/

/-- The timeout check comes first, and the byte then finds the parser in `Idle` (43_parser.md
R173). -/
theorem exec_feed_of_late {s : State} {start now : U32} (hstart : s.parser.start? = some start)
    (ht : s.cfg.timeoutMs.toNat < elapsed s.cfg start now) (b : Byte) :
    exec (.feed now b) s = exec (.feed now b) (goIdle (countTimeout s)) := by
  have hidle : timeoutCheck now (goIdle (countTimeout s)) = goIdle (countTimeout s) :=
    timeoutCheck_of_idle now (goIdle_parser _)
  simp only [exec, execFeed, timeoutCheck_of_late hstart ht, hidle]

/-- Settles O44: with the timeout counted, the byte is one that comes in `Idle`. -/
theorem feedFindsTimeout : Obligations.FeedFindsTimeout := by
  intro now start b s hstart ht
  rw [exec_feed_of_late hstart ht b]
  exact feedInIdle now b (goIdle (countTimeout s)) rfl

/-! ## The status of a response (R241) -/

/-- The statuses that R241's table gives a command. -/
@[simp] def statusesOf : Instr → List Status
  | .crc16 _ => [.ok]
  | .escape _ => [.ok]
  | .unescape _ => [.ok, .malformedEscape]
  | .encode _ _ => [.ok, .invalidType, .payloadTooLarge]
  | .decode _ _ => [.frame, .decodeMalformed, .decodeChecksumMismatch]
  | .feed _ _ => [.ok, .frame]
  | .tick _ => [.ok]
  | .stats => [.ok]
  | .reset => [.ok]

/-- The statuses that R241's table gives the bytes of a command, decoded or not. -/
def portStatuses : Except CommandError Instr → List Status
  | .error e => [commandErrorStatus e]
  | .ok i => statusesOf i

/-- No status but OK and FRAME has the byte of either. -/
theorem not_success_of_code_ne {st : Status} (hok : st.code ≠ 0x00#8) (hframe : st.code ≠ 0x01#8) :
    ¬ (st = .ok ∨ st = .frame) := by
  rintro (rfl | rfl)
  · exact hok rfl
  · exact hframe rfl

/-- `t` answers a command taken in `s` with one of the statuses `allowed`: by success, or by a
reported error that changes no state (R240). -/
inductive Answers (allowed : List Status) (s : State) : State → Prop where
  | success {st : Status} (hst : st ∈ allowed) (hkind : st = .ok ∨ st = .frame)
      (fields : List Byte) (u : State) : Answers allowed s (respond st fields u)
  | error {st : Status} (hst : st ∈ allowed) : Answers allowed s (raiseError st s)

namespace Answers

variable {allowed : List Status} {s t : State}

theorem ok (h : .ok ∈ allowed) (fields : List Byte) (u : State) :
    Answers allowed s (respond .ok fields u) :=
  .success h (.inl rfl) fields u

theorem frame (h : .frame ∈ allowed) (fields : List Byte) (u : State) :
    Answers allowed s (respond .frame fields u) :=
  .success h (.inr rfl) fields u

/-- An answer begins with a status of the table, and only a success has fields. -/
theorem response (h : Answers allowed s t) :
    ∃ st ∈ allowed, ∃ fields, t.response = some (st.code :: fields) ∧
      (st.code ≠ 0x00#8 → st.code ≠ 0x01#8 → fields = []) := by
  cases h with
  | success hst hkind fields u =>
    exact ⟨_, hst, fields, rfl, fun hok hframe =>
      absurd hkind (not_success_of_code_ne hok hframe)⟩
  | error hst => exact ⟨_, hst, [], rfl, fun _ _ => rfl⟩

/-- An answer that is neither OK nor FRAME is its status and no change of state. -/
theorem eq_of_error {code : Byte} {fields : List Byte} (h : Answers allowed s t)
    (hresponse : t.response = some (code :: fields)) (hok : code ≠ 0x00#8)
    (hframe : code ≠ 0x01#8) : t = { s with response := some [code] } := by
  cases h with
  | success hst hkind fields u =>
    cases hresponse
    exact absurd hkind (not_success_of_code_ne hok hframe)
  | error hst =>
    cases hresponse
    rfl

end Answers

theorem encodeErrorStatus_mem (e : EncodeError) (typ payload : List Byte) :
    encodeErrorStatus e ∈ statusesOf (.encode typ payload) := by
  cases e <;> simp [encodeErrorStatus]

theorem decodeErrorStatus_mem (e : DecodeError) (now : U32) (buffer : List Byte) :
    decodeErrorStatus e ∈ statusesOf (.decode now buffer) := by
  cases e <;> simp [decodeErrorStatus]

/-- Every command answers as R241's table says, and its errors change no state (R240). -/
theorem exec_answers_of_table {i : Instr} {s t : State} (h : exec i s = .next t) :
    Answers (statusesOf i) s t := by
  cases i with
  | crc16 data => cases h; exact .ok (by simp) _ _
  | escape data => cases h; exact .ok (by simp) _ _
  | unescape data =>
    cases hout : unescape s.cfg data with
    | none =>
      cases (exec_unescape_of_none hout).symm.trans h
      exact .error (by simp)
    | some out =>
      cases (exec_unescape_of_some hout).symm.trans h
      exact .ok (by simp) _ _
  | encode typ payload =>
    cases hwire : frameEncode s.cfg typ payload with
    | error e =>
      cases (exec_encode_of_error hwire).symm.trans h
      exact .error (encodeErrorStatus_mem e typ payload)
    | ok wire =>
      cases (exec_encode_of_ok hwire).symm.trans h
      exact .ok (by simp) _ _
  | decode now buffer =>
    cases hf : frameDecode s.cfg buffer now with
    | error e =>
      cases (exec_decode_of_error hf).symm.trans h
      exact .error (decodeErrorStatus_mem e now buffer)
    | ok f =>
      cases (exec_decode_of_ok hf).symm.trans h
      exact .frame (by simp) _ _
  | feed now b =>
    cases h
    rw [feedByte_eq_respondEvents]
    obtain ⟨-, heq⟩ | ⟨f, -, heq⟩ := respondEvents_cases
      (byteStep (timeoutCheck now s).cfg (timeoutCheck now s).parser b now).2
      (absorbByte now b (timeoutCheck now s)) <;> rw [heq]
    · exact .ok (by simp) _ _
    · exact .frame (by simp) _ _
  | tick now => cases h; exact .ok (by simp) _ _
  | stats => cases h; exact .ok (by simp) _ _
  | reset => cases h; exact .ok (by simp) _ _

/-- Every step that takes a command answers as R241's table says. -/
theorem step_answers_of_table {s t : State} {bytes : List Byte} {rest : List (List Byte)}
    (hpending : s.pending = bytes :: rest) (h : step s = .next t) :
    Answers (portStatuses (decodeCommand bytes)) { s with pending := rest } t := by
  obtain ⟨-, ⟨hnone, -⟩ | ⟨bytes', rest', hsome, hcommand⟩⟩ := step_cases h
  · cases hpending.symm.trans hnone
  · cases hpending.symm.trans hsome
    obtain ⟨e, hd, rfl⟩ | ⟨i, hd, hexec⟩ := hcommand
    · rw [hd]
      exact .error (List.mem_singleton_self _)
    · rw [hd]
      exact exec_answers_of_table hexec

/-- Settles O14: the status is one of the table, and the table is R241's row by row. -/
theorem statusByteIsOfTable : Obligations.StatusByteIsOfTable := by
  intro s t bytes rest hpending h
  obtain ⟨st, hst, fields, hresponse, hfields⟩ := (step_answers_of_table hpending h).response
  have hcode : st.code ∈ (portStatuses (decodeCommand bytes)).map Status.code :=
    List.mem_map_of_mem hst
  refine ⟨st.code, fields, hresponse, hfields, ?_⟩
  generalize st.code = code at hcode
  cases hd : decodeCommand bytes with
  | error e =>
    rw [hd] at hcode
    cases e <;> simpa [portStatuses, commandErrorStatus, Status.code] using hcode
  | ok i =>
    rw [hd] at hcode
    cases i <;> simpa [portStatuses, Status.code] using hcode

/-- Settles O15: of the two kinds of answer it is the error. -/
theorem reportedErrorChangesNoState : Obligations.ReportedErrorChangesNoState :=
  fun _ _ _ _ _ _ hpending h hresponse hok hframe =>
    (step_answers_of_table hpending h).eq_of_error hresponse hok hframe

end Sys2Proof.Machine
end

/-! # Proofs: reset and the sizes of the responses (70_reset_and_hazards.md R270, R279) -/

section
namespace Sys2Proof.Machine

/-! ## Reset (R270) -/

/-- RESET answers `ok` from the reset block (44_control.md R221). -/
theorem exec_reset (s : State) : exec .reset s = .next (respond .ok [] (resetBlock s)) := rfl

theorem respond_ok_resetBlock (s : State) :
    respond .ok [] (resetBlock s) =
      { s with parser := .idle, stats := ⟨0, 0, 0, 0, 0⟩, response := some [0x00#8] } := rfl

/-- Settles O1: RESET is the block reset, and power-on gives the parser and the counters the same
values. -/
theorem resetEventsGiveResetState : Obligations.ResetEventsGiveResetState :=
  ⟨fun _ => rfl, fun s => by rw [exec_reset, respond_ok_resetBlock]⟩

/-! ## The size of a frame record (R279, 30_encoding.md R81) -/

theorem parseSpan_legal {c : Config} (hwf : c.wf = true) (now : U32) {q : ParserState}
    (hq : q.Legal c) (data : List Byte) : (parseSpan c now q data).1.Legal c := by
  induction data generalizing q with
  | nil => exact hq
  | cons b data ih => exact ih (byteStep_legal hwf hq b now)

theorem emitted_of_outcomeOf {events : List Event} {f : FrameRecord}
    (h : outcomeOf events = some (.frame f)) : emitted events = some f := by
  induction events with
  | nil => cases h
  | cons e rest ih =>
    cases e with
    | begin => exact ih h
    | malformed | mismatch => cases h
    | frame g => cases h; rfl

/-- A frame that a legal attempt completes has a type of three bytes, and its payload is no longer
than the escaped one that the budget bounds. -/
theorem length_frameBytes_le {c : Config} {q : ParserState} (hq : q.Legal c) {b : Byte} {now : U32}
    {f : FrameRecord} (h : emitted (byteStep c q b now).2 = some f) :
    (frameBytes f).length ≤ 11 + (c.payloadBudget - 4) := by
  obtain ⟨start, lenDigits, typ, raw, payload, cs, rfl, rfl, -⟩ := emitted_byteStep h
  obtain ⟨-, htyp, hbudget, -, hpayload, -⟩ := hq
  have hunescaped := length_unescape_le hpayload
  simp only [length_frameBytes, htyp]
  omega

/-- DECODE's private parser starts in `Idle`, so it completes a frame from a legal attempt. -/
theorem length_frameBytes_le_of_frameDecode {c : Config} (hwf : c.wf = true) {buf : List Byte}
    {now : U32} {f : FrameRecord} (h : frameDecode c buf now = .ok f) :
    (frameBytes f).length ≤ 11 + (c.payloadBudget - 4) := by
  obtain ⟨-, before, last, -, -, hmem⟩ := (decodeAgreesWithParser c buf now f).mp h
  have hlegal : (parseSpan c now .idle before).1.Legal c :=
    parseSpan_legal (q := .idle) hwf now trivial before
  have houtcome := (mem_byteStep_iff_outcomeOf (e := .frame f) nofun).mp hmem
  exact length_frameBytes_le hlegal (emitted_of_outcomeOf houtcome)

/-! ## The size of a response (R279, 30_encoding.md R80) -/

/-- The state gives a response of at most `n` bytes. -/
def RespondsWithin (n : Nat) (t : State) : Prop := ∃ r, t.response = some r ∧ r.length ≤ n

theorem respond_within {n : Nat} {fields : List Byte} (h : 1 + fields.length ≤ n) (st : Status)
    (s : State) : RespondsWithin n (respond st fields s) :=
  ⟨_, rfl, by rw [List.length_cons]; omega⟩

theorem raiseError_within {n : Nat} (h : 1 ≤ n) (st : Status) (s : State) :
    RespondsWithin n (raiseError st s) :=
  respond_within h st s

theorem length_spanBytes (w : Nat) (data : List Byte) :
    (spanBytes w data).length = w + data.length := by
  rw [spanBytes, List.length_append, length_beBytes]

/-- A span32 in a response costs five bytes beside its own: the status and the length field. -/
theorem respond_span32_within {n : Nat} {out : List Byte} (h : out.length ≤ n) (st : Status)
    (s : State) : RespondsWithin (5 + n) (respond st (spanBytes 4 out) s) :=
  respond_within (by rw [length_spanBytes]; omega) st s

theorem spanFits_length {data : List Byte} (h : spanFits data = true) : data.length ≤ 65535 :=
  of_decide_eq_true h

section
variable {s t : State}

theorem exec_escape_within {data : List Byte} (hfits : spanFits data = true)
    (h : exec (.escape data) s = .next t) : RespondsWithin (5 + 2 * 65535) t := by
  cases h
  have hdata := spanFits_length hfits
  have hreserved : data.countP s.cfg.isReserved ≤ data.length := List.countP_le_length
  exact respond_span32_within (by rw [length_escape]; omega) _ _

theorem exec_unescape_within {data : List Byte} (hfits : spanFits data = true)
    (h : exec (.unescape data) s = .next t) : RespondsWithin (5 + 65535) t := by
  cases hout : unescape s.cfg data with
  | none =>
    cases (exec_unescape_of_none hout).symm.trans h
    exact raiseError_within (by omega) _ _
  | some out =>
    cases (exec_unescape_of_some hout).symm.trans h
    exact respond_span32_within ((length_unescape_le hout).trans (spanFits_length hfits)) _ _

theorem exec_encode_within (hwf : s.cfg.wf = true) {typ payload : List Byte}
    (h : exec (.encode typ payload) s = .next t) : RespondsWithin (5 + s.cfg.maxFrameSize) t := by
  obtain ⟨e, -, rfl⟩ | ⟨wire, hwire, rfl⟩ := exec_encode_cases h
  · exact raiseError_within (by omega) _ _
  · obtain ⟨-, hsize⟩ := wireFrameFitsMaxFrameSize s.cfg typ payload wire hwf hwire
    exact respond_span32_within hsize _ _

theorem exec_decode_within (hwf : s.cfg.wf = true) {now : U32} {buffer : List Byte}
    (h : exec (.decode now buffer) s = .next t) :
    RespondsWithin (1 + (11 + (s.cfg.payloadBudget - 4))) t := by
  cases hf : frameDecode s.cfg buffer now with
  | error e =>
    cases (exec_decode_of_error hf).symm.trans h
    exact raiseError_within (by omega) _ _
  | ok f =>
    cases (exec_decode_of_ok hf).symm.trans h
    exact respond_within (Nat.add_le_add_left (length_frameBytes_le_of_frameDecode hwf hf) 1) _ _

/-- The timeout check keeps the state legal, so the byte meets a legal attempt. -/
theorem exec_feed_within (hinv : s.Inv) {now : U32} {b : Byte}
    (h : exec (.feed now b) s = .next t) :
    RespondsWithin (1 + (11 + (s.cfg.payloadBudget - 4))) t := by
  cases h
  obtain ⟨-, hlegal, -⟩ := inv_keptByOperations.timeout now s hinv
  rw [feedByte_eq_respondEvents, ← timeoutCheck_cfg now s]
  obtain ⟨-, heq⟩ | ⟨f, hf, heq⟩ := respondEvents_cases
    (byteStep (timeoutCheck now s).cfg (timeoutCheck now s).parser b now).2
    (absorbByte now b (timeoutCheck now s)) <;> rw [heq]
  · exact respond_within (Nat.le_add_right 1 _) _ _
  · exact respond_within (Nat.add_le_add_left (length_frameBytes_le hlegal hf) 1) _ _

end

theorem length_statsBytes (st : Stats) : (statsBytes st).length = 20 := by
  simp [statsBytes]

/-- Settles O16, command by command. -/
theorem responseSizes : Obligations.ResponseSizes := by
  intro s t i hinv hfits h
  have hwf : s.cfg.wf = true := hinv.1
  cases i with
  | crc16 data => cases h; exact ⟨_, rfl, by simp⟩
  | escape data => exact exec_escape_within hfits h
  | unescape data => exact exec_unescape_within hfits h
  | encode typ payload => exact exec_encode_within hwf h
  | decode now buffer => exact exec_decode_within hwf h
  | feed now b => exact exec_feed_within hinv h
  | tick now => cases h; exact ⟨_, rfl, rfl⟩
  | stats => cases h; exact ⟨_, rfl, congrArg (· + 1) (length_statsBytes s.stats)⟩
  | reset => cases h; exact ⟨_, rfl, rfl⟩

end Sys2Proof.Machine
end
